-- ==== Sys2Proof/Word.lean ====
section
/-! DEFINITION. The bit vectors and the small fixed tables of the CHIP-8 CORE: widths as in 00_scope.md R6. -/

namespace Sys2Proof

/-- A 4-bit opcode field (30_encoding.md R46): a register index `x` or `y`, or a row count `n`. -/
abbrev Nibble := BitVec 4

/-- An 8-bit value: a general register, a timer, a memory byte, an immediate `NN` (R6, R14, R29). -/
abbrev Byte := BitVec 8

/-- A 12-bit address field `NNN` (R46). -/
abbrev Addr12 := BitVec 12

/-- A 16-bit value: `PC`, `I`, a stack entry, an opcode (R6, R12, R17, R18, R21). -/
abbrev Word := BitVec 16

/-- The keymap: "16 boolean flags, one per hexadecimal key" (10_state.md R24). -/
abbrev Keymap := Vector Bool 16

/-- The framebuffer: 32 rows of 64 one-bit pixels, addressed (row, column) (10_state.md R25). -/
abbrev Framebuffer := Vector (Vector Bool 64) 32

/-- The index of `VF`, the flag register (10_state.md R15). -/
abbrev vF : Nibble := 15#4

end Sys2Proof
end

