-- ==== Sys2Proof/Syntax.lean ====
section
/-! DEFINITION. The instructions: one constructor per row of the opcode map (30_encoding.md R49), in its order. The operand
fields have the widths of R46, so no field can hold a value the encoding does not admit. An opcode that selects no row is no
instruction: decoding names it `unknown` (R50) and the cycle runs it as a one-slot no-op. -/

namespace Sys2Proof

/-- One constructor per row of spec/opcode_table.json. `shr` and `shl` carry the `y` field of their encoding, which the
instruction does not read (R49, R80, R81), so that an instruction determines its opcode. -/
inductive Instr where
  /-- `00E0` clear-screen (R55). -/
  | clearScreen
  /-- `00EE` return (R58). -/
  | ret
  /-- `1NNN` jump (R59). -/
  | jump (nnn : Addr12)
  /-- `2NNN` call (R60). -/
  | call (nnn : Addr12)
  /-- `3XNN` skip-eq-imm (R63). -/
  | skipEqImm (x : Nibble) (nn : Byte)
  /-- `4XNN` skip-ne-imm (R64). -/
  | skipNeImm (x : Nibble) (nn : Byte)
  /-- `5XY0` skip-eq-reg (R65). -/
  | skipEqReg (x y : Nibble)
  /-- `6XNN` load-imm (R71). -/
  | loadImm (x : Nibble) (nn : Byte)
  /-- `7XNN` add-imm (R73). -/
  | addImm (x : Nibble) (nn : Byte)
  /-- `8XY0` load-reg (R72). -/
  | loadReg (x y : Nibble)
  /-- `8XY1` or (R74). -/
  | orReg (x y : Nibble)
  /-- `8XY2` and (R75). -/
  | andReg (x y : Nibble)
  /-- `8XY3` xor (R76). -/
  | xorReg (x y : Nibble)
  /-- `8XY4` add-reg (R77). -/
  | addReg (x y : Nibble)
  /-- `8XY5` sub (R78). -/
  | sub (x y : Nibble)
  /-- `8XY6` shr (R80). -/
  | shr (x y : Nibble)
  /-- `8XY7` subn (R79). -/
  | subn (x y : Nibble)
  /-- `8XYE` shl (R81). -/
  | shl (x y : Nibble)
  /-- `9XY0` skip-ne-reg (R66). -/
  | skipNeReg (x y : Nibble)
  /-- `ANNN` load-index (R84). -/
  | loadIndex (nnn : Addr12)
  /-- `BNNN` jump-plus-v0 (R61). -/
  | jumpPlusV0 (nnn : Addr12)
  /-- `CXNN` rand (R82). -/
  | rand (x : Nibble) (nn : Byte)
  /-- `DXYN` draw (R56). -/
  | draw (x y n : Nibble)
  /-- `EX9E` skip-key-pressed (R67). -/
  | skipKeyPressed (x : Nibble)
  /-- `EXA1` skip-key-not-pressed (R68). -/
  | skipKeyNotPressed (x : Nibble)
  /-- `FX07` load-delay (R90). -/
  | loadDelay (x : Nibble)
  /-- `FX0A` wait-key (R91). -/
  | waitKey (x : Nibble)
  /-- `FX15` set-delay (R92). -/
  | setDelay (x : Nibble)
  /-- `FX18` set-sound (R93). -/
  | setSound (x : Nibble)
  /-- `FX1E` add-index (R85). -/
  | addIndex (x : Nibble)
  /-- `FX29` font-addr (R86). -/
  | fontAddr (x : Nibble)
  /-- `FX33` bcd (R87). -/
  | bcd (x : Nibble)
  /-- `FX55` store-range (R88). -/
  | storeRange (x : Nibble)
  /-- `FX65` load-range (R89). -/
  | loadRange (x : Nibble)
deriving DecidableEq, Repr

end Sys2Proof
end

