-- ==== Sys2Proof/Decode.lean ====
section
/-! DEFINITION. Decoding and encoding: the nibbles of 30_encoding.md R46 and the opcode map of R49, both written out from
R49's patterns. Decoding is total: an opcode that selects no row is `unknown`, by name (R50, R52). -/

namespace Sys2Proof

/-- What an opcode decodes to: an instruction, or the designed fallback `unknown(op)` (R50, R52). -/
inductive Decoded where
  /-- The opcode selects a row of R49. -/
  | instr (i : Instr)
  /-- The opcode selects no row (R50, R51): the cycle runs it as a one-slot no-op. -/
  | unknown (op : Word)
deriving DecidableEq, Repr

/-- `n1 = op[15:12]` (R46). -/
def opN1 (op : Word) : Nibble := op.extractLsb' 12 4

/-- `x = n2 = op[11:8]` (R46). -/
def opX (op : Word) : Nibble := op.extractLsb' 8 4

/-- `y = n3 = op[7:4]` (R46). -/
def opY (op : Word) : Nibble := op.extractLsb' 4 4

/-- `n = n4 = op[3:0]` (R46). -/
def opN (op : Word) : Nibble := op.extractLsb' 0 4

/-- The opcode with the four nibbles `n1`, `n2`, `n3`, `n4`, most significant first (R8, R46). -/
def ofNibbles (n1 n2 n3 n4 : Nibble) : Word := n1 ++ n2 ++ n3 ++ n4

/-- `nn = op[7:0]` from its two nibbles (R46). -/
def immOf (n3 n4 : Nibble) : Byte := n3 ++ n4

/-- `nnn = op[11:0]` from its three nibbles (R46). -/
def addrOf (n2 n3 n4 : Nibble) : Addr12 := n2 ++ n3 ++ n4

/-- `nn[7:4]` (R47, format `FXK`). -/
def immHi (nn : Byte) : Nibble := nn.extractLsb' 4 4

/-- `nn[3:0]` (R47, format `FXK`). -/
def immLo (nn : Byte) : Nibble := nn.extractLsb' 0 4

/-- `nnn[11:8]` (R47, format `FA`). -/
def addrHi (nnn : Addr12) : Nibble := nnn.extractLsb' 8 4

/-- `nnn[7:4]` (R47, format `FA`). -/
def addrMid (nnn : Addr12) : Nibble := nnn.extractLsb' 4 4

/-- `nnn[3:0]` (R47, format `FA`). -/
def addrLo (nnn : Addr12) : Nibble := nnn.extractLsb' 0 4

/-- The rows with `n1 = 0`: all four nibbles are fixed (R49 rows 1 and 2). -/
def decode0 (x y n : Nibble) : Option Instr :=
  if x = 0x0#4 ∧ y = 0xE#4 ∧ n = 0x0#4 then some .clearScreen
  else if x = 0x0#4 ∧ y = 0xE#4 ∧ n = 0xE#4 then some .ret
  else none

/-- The rows with `n1 = 8`, selected by `n` (R49 rows 10 to 18). -/
def decode8 (x y n : Nibble) : Option Instr :=
  if n = 0x0#4 then some (.loadReg x y)
  else if n = 0x1#4 then some (.orReg x y)
  else if n = 0x2#4 then some (.andReg x y)
  else if n = 0x3#4 then some (.xorReg x y)
  else if n = 0x4#4 then some (.addReg x y)
  else if n = 0x5#4 then some (.sub x y)
  else if n = 0x6#4 then some (.shr x y)
  else if n = 0x7#4 then some (.subn x y)
  else if n = 0xE#4 then some (.shl x y)
  else none

/-- The rows with `n1 = E`, selected by `nn` (R49 rows 24 and 25). -/
def decodeE (x : Nibble) (nn : Byte) : Option Instr :=
  if nn = 0x9E#8 then some (.skipKeyPressed x)
  else if nn = 0xA1#8 then some (.skipKeyNotPressed x)
  else none

/-- The rows with `n1 = F`, selected by `nn` (R49 rows 26 to 34). -/
def decodeF (x : Nibble) (nn : Byte) : Option Instr :=
  if nn = 0x07#8 then some (.loadDelay x)
  else if nn = 0x0A#8 then some (.waitKey x)
  else if nn = 0x15#8 then some (.setDelay x)
  else if nn = 0x18#8 then some (.setSound x)
  else if nn = 0x1E#8 then some (.addIndex x)
  else if nn = 0x29#8 then some (.fontAddr x)
  else if nn = 0x33#8 then some (.bcd x)
  else if nn = 0x55#8 then some (.storeRange x)
  else if nn = 0x65#8 then some (.loadRange x)
  else none

/-- The opcode map over `(n1,n2,n3,n4)` (R49). A nibble that is no operand field is matched exactly (D14). -/
def decodeNibbles (n1 x y n : Nibble) : Option Instr :=
  if n1 = 0x0#4 then decode0 x y n
  else if n1 = 0x1#4 then some (.jump (addrOf x y n))
  else if n1 = 0x2#4 then some (.call (addrOf x y n))
  else if n1 = 0x3#4 then some (.skipEqImm x (immOf y n))
  else if n1 = 0x4#4 then some (.skipNeImm x (immOf y n))
  else if n1 = 0x5#4 then (if n = 0x0#4 then some (.skipEqReg x y) else none)
  else if n1 = 0x6#4 then some (.loadImm x (immOf y n))
  else if n1 = 0x7#4 then some (.addImm x (immOf y n))
  else if n1 = 0x8#4 then decode8 x y n
  else if n1 = 0x9#4 then (if n = 0x0#4 then some (.skipNeReg x y) else none)
  else if n1 = 0xA#4 then some (.loadIndex (addrOf x y n))
  else if n1 = 0xB#4 then some (.jumpPlusV0 (addrOf x y n))
  else if n1 = 0xC#4 then some (.rand x (immOf y n))
  else if n1 = 0xD#4 then some (.draw x y n)
  else if n1 = 0xE#4 then decodeE x (immOf y n)
  else decodeF x (immOf y n)

/-- `decode(op)` (R49, R52): total; an opcode that selects no row is `unknown`. -/
def decode (op : Word) : Decoded :=
  match decodeNibbles (opN1 op) (opX op) (opY op) (opN op) with
  | some i => .instr i
  | none => .unknown op

/-- `nn = op[7:0]` of an opcode (R46). -/
def opImm (op : Word) : Byte := immOf (opY op) (opN op)

/-- `nnn = op[11:0]` of an opcode (R46). -/
def opAddr (op : Word) : Addr12 := addrOf (opX op) (opY op) (opN op)

/-- One row of the opcode map: `op` selects it when `op & mask = match` (R49). -/
structure OpcodeRow where
  /-- The row's `match` column. -/
  matchBits : Word
  /-- The row's `mask` column. -/
  mask : Word
  /-- The instruction the row stands for, its operand fields read from the opcode (R46). -/
  read : Word → Instr

/-- The opcode map as R49 prints it, row by row in its order. `decode` does not use it: that the two agree is a statement. -/
def opcodeMap : List OpcodeRow :=
  [⟨0x00E0#16, 0xFFFF#16, fun _ => .clearScreen⟩,
   ⟨0x00EE#16, 0xFFFF#16, fun _ => .ret⟩,
   ⟨0x1000#16, 0xF000#16, fun op => .jump (opAddr op)⟩,
   ⟨0x2000#16, 0xF000#16, fun op => .call (opAddr op)⟩,
   ⟨0x3000#16, 0xF000#16, fun op => .skipEqImm (opX op) (opImm op)⟩,
   ⟨0x4000#16, 0xF000#16, fun op => .skipNeImm (opX op) (opImm op)⟩,
   ⟨0x5000#16, 0xF00F#16, fun op => .skipEqReg (opX op) (opY op)⟩,
   ⟨0x6000#16, 0xF000#16, fun op => .loadImm (opX op) (opImm op)⟩,
   ⟨0x7000#16, 0xF000#16, fun op => .addImm (opX op) (opImm op)⟩] ++
  [⟨0x8000#16, 0xF00F#16, fun op => .loadReg (opX op) (opY op)⟩,
   ⟨0x8001#16, 0xF00F#16, fun op => .orReg (opX op) (opY op)⟩,
   ⟨0x8002#16, 0xF00F#16, fun op => .andReg (opX op) (opY op)⟩,
   ⟨0x8003#16, 0xF00F#16, fun op => .xorReg (opX op) (opY op)⟩,
   ⟨0x8004#16, 0xF00F#16, fun op => .addReg (opX op) (opY op)⟩,
   ⟨0x8005#16, 0xF00F#16, fun op => .sub (opX op) (opY op)⟩,
   ⟨0x8006#16, 0xF00F#16, fun op => .shr (opX op) (opY op)⟩,
   ⟨0x8007#16, 0xF00F#16, fun op => .subn (opX op) (opY op)⟩,
   ⟨0x800E#16, 0xF00F#16, fun op => .shl (opX op) (opY op)⟩] ++
  [⟨0x9000#16, 0xF00F#16, fun op => .skipNeReg (opX op) (opY op)⟩,
   ⟨0xA000#16, 0xF000#16, fun op => .loadIndex (opAddr op)⟩,
   ⟨0xB000#16, 0xF000#16, fun op => .jumpPlusV0 (opAddr op)⟩,
   ⟨0xC000#16, 0xF000#16, fun op => .rand (opX op) (opImm op)⟩,
   ⟨0xD000#16, 0xF000#16, fun op => .draw (opX op) (opY op) (opN op)⟩,
   ⟨0xE09E#16, 0xF0FF#16, fun op => .skipKeyPressed (opX op)⟩,
   ⟨0xE0A1#16, 0xF0FF#16, fun op => .skipKeyNotPressed (opX op)⟩,
   ⟨0xF007#16, 0xF0FF#16, fun op => .loadDelay (opX op)⟩,
   ⟨0xF00A#16, 0xF0FF#16, fun op => .waitKey (opX op)⟩] ++
  [⟨0xF015#16, 0xF0FF#16, fun op => .setDelay (opX op)⟩,
   ⟨0xF018#16, 0xF0FF#16, fun op => .setSound (opX op)⟩,
   ⟨0xF01E#16, 0xF0FF#16, fun op => .addIndex (opX op)⟩,
   ⟨0xF029#16, 0xF0FF#16, fun op => .fontAddr (opX op)⟩,
   ⟨0xF033#16, 0xF0FF#16, fun op => .bcd (opX op)⟩,
   ⟨0xF055#16, 0xF0FF#16, fun op => .storeRange (opX op)⟩,
   ⟨0xF065#16, 0xF0FF#16, fun op => .loadRange (opX op)⟩]

/-- An instruction of format `FA`: `n1` and a 12-bit address (R47). -/
def encodeFA (n1 : Nibble) (nnn : Addr12) : Word := ofNibbles n1 (addrHi nnn) (addrMid nnn) (addrLo nnn)

/-- An instruction of format `FXK`: `n1`, `x` and a byte (R47). -/
def encodeFXK (n1 x : Nibble) (nn : Byte) : Word := ofNibbles n1 x (immHi nn) (immLo nn)

/-- The opcode of an instruction: R49's pattern with its fields filled in. -/
def encode : Instr → Word
  | .clearScreen => ofNibbles 0x0#4 0x0#4 0xE#4 0x0#4
  | .ret => ofNibbles 0x0#4 0x0#4 0xE#4 0xE#4
  | .jump nnn => encodeFA 0x1#4 nnn
  | .call nnn => encodeFA 0x2#4 nnn
  | .skipEqImm x nn => encodeFXK 0x3#4 x nn
  | .skipNeImm x nn => encodeFXK 0x4#4 x nn
  | .skipEqReg x y => ofNibbles 0x5#4 x y 0x0#4
  | .loadImm x nn => encodeFXK 0x6#4 x nn
  | .addImm x nn => encodeFXK 0x7#4 x nn
  | .loadReg x y => ofNibbles 0x8#4 x y 0x0#4
  | .orReg x y => ofNibbles 0x8#4 x y 0x1#4
  | .andReg x y => ofNibbles 0x8#4 x y 0x2#4
  | .xorReg x y => ofNibbles 0x8#4 x y 0x3#4
  | .addReg x y => ofNibbles 0x8#4 x y 0x4#4
  | .sub x y => ofNibbles 0x8#4 x y 0x5#4
  | .shr x y => ofNibbles 0x8#4 x y 0x6#4
  | .subn x y => ofNibbles 0x8#4 x y 0x7#4
  | .shl x y => ofNibbles 0x8#4 x y 0xE#4
  | .skipNeReg x y => ofNibbles 0x9#4 x y 0x0#4
  | .loadIndex nnn => encodeFA 0xA#4 nnn
  | .jumpPlusV0 nnn => encodeFA 0xB#4 nnn
  | .rand x nn => encodeFXK 0xC#4 x nn
  | .draw x y n => ofNibbles 0xD#4 x y n
  | .skipKeyPressed x => encodeFXK 0xE#4 x 0x9E#8
  | .skipKeyNotPressed x => encodeFXK 0xE#4 x 0xA1#8
  | .loadDelay x => encodeFXK 0xF#4 x 0x07#8
  | .waitKey x => encodeFXK 0xF#4 x 0x0A#8
  | .setDelay x => encodeFXK 0xF#4 x 0x15#8
  | .setSound x => encodeFXK 0xF#4 x 0x18#8
  | .addIndex x => encodeFXK 0xF#4 x 0x1E#8
  | .fontAddr x => encodeFXK 0xF#4 x 0x29#8
  | .bcd x => encodeFXK 0xF#4 x 0x33#8
  | .storeRange x => encodeFXK 0xF#4 x 0x55#8
  | .loadRange x => encodeFXK 0xF#4 x 0x65#8

/-- The byte of an opcode that is stored at the lower address: `op[15:8]` (20_memory.md R34, R35). -/
def opHi (op : Word) : Byte := op.extractLsb' 8 8

/-- The byte of an opcode that is stored at the higher address: `op[7:0]` (R34, R35). -/
def opLo (op : Word) : Byte := op.extractLsb' 0 8

/-- The 16-bit word of two fetched bytes, high byte first (R34: `hi * 256 + lo`). -/
def opOfBytes (hi lo : Byte) : Word := hi ++ lo

/-- The bytes of an instruction as memory holds them, lowest address first (R35, R45). -/
def encodeBytes (i : Instr) : List Byte := [opHi (encode i), opLo (encode i)]

/-- The decoder on bytes as memory holds them: the instruction and the rest, or none where fewer than one slot is left or the
opcode is unknown. -/
def decodeBytes : List Byte → Option (Instr × List Byte)
  | hi :: lo :: rest =>
    match decode (opOfBytes hi lo) with
    | .instr i => some (i, rest)
    | .unknown _ => none
  | _ => none

/-- The opcode with bits `w`, of which the table gives `nbits`: every bit above them is 0. An instruction is one 16-bit word
(R45), so bit 0 of `w` is the opcode's bit 0 (R8). -/
def tableWord (nbits w : Nat) : Word := BitVec.ofNat 16 (w % 2 ^ nbits)

/-- The instruction the decoder reads from the bits `w` of a row of spec/opcode_table.json, laid out in memory as R34 says. -/
def decodeTableWord (nbits w : Nat) : Option Instr :=
  (decodeBytes [opHi (tableWord nbits w), opLo (tableWord nbits w)]).map Prod.fst

end Sys2Proof
end

