-- ==== Sys2Proof/Config.lean ====
section
/-! DEFINITION. What is fixed for the machine (00_scope.md R6), its open parameters (R7) and the two free values. -/

namespace Sys2Proof

/-- Parameter `VF_OPERAND_POLICY` (R7, 43_alu.md R70, D7): what `VF` holds when `VF` is the destination of an instruction
that also writes it as a flag. -/
inductive VFOperandPolicy where
  /-- `VF` ends holding the flag: the spec's default. -/
  | flagLast
  /-- `VF` ends holding the result. -/
  | resultLast
  /-- The instruction raises `VFOperandConflict` and writes nothing. -/
  | fault
deriving DecidableEq, Repr

/-- What the host sends with one tick (60_exceptions.md R101, R110): the whole keymap, and whether this tick runs a cycle
(parameter `RUN_CYCLE`, D23). -/
structure HostTick where
  /-- The 16-key snapshot. -/
  snapshot : Keymap
  /-- Whether the tick executes one opcode or none. -/
  run : Bool
deriving DecidableEq, Repr, Inhabited

namespace Config

/-- `MEM_SIZE` (R6). -/
abbrev memSize : Nat := 4096

/-- `STACK_DEPTH` (R6). -/
abbrev stackDepth : Nat := 16

/-- `PROGRAM_BASE` (R6): the cartridge's first address and the reset entry point. -/
abbrev programBase : Nat := 0x200

/-- `FONT_BASE` (R6). -/
abbrev fontBase : Nat := 0

/-- `FONT_STRIDE` (R6): bytes per glyph. -/
abbrev fontStride : Nat := 5

/-- `SLOT` (R6): bytes per instruction. -/
abbrev slot : Nat := 2

/-- Parameter `FONT` at its default: the 16 glyphs of 70_reset_and_hazards.md R115, one glyph a line (D21). PRESUMED by the spec
itself (G3), unsafe: see log 4. -/
def font : List Byte :=
  [0xF0, 0x90, 0x90, 0x90, 0xF0,
   0x20, 0x60, 0x20, 0x20, 0x70,
   0xF0, 0x10, 0xF0, 0x80, 0xF0,
   0xF0, 0x10, 0xF0, 0x10, 0xF0,
   0x90, 0x90, 0xF0, 0x10, 0x10,
   0xF0, 0x80, 0xF0, 0x10, 0xF0,
   0xF0, 0x80, 0xF0, 0x90, 0xF0,
   0xF0, 0x10, 0x20, 0x40, 0x40] ++
  [0xF0, 0x90, 0xF0, 0x90, 0xF0,
   0xF0, 0x90, 0xF0, 0x10, 0xF0,
   0xF0, 0x90, 0xF0, 0x90, 0x90,
   0xE0, 0x90, 0xE0, 0x90, 0xE0,
   0xF0, 0x80, 0x80, 0x80, 0xF0,
   0xE0, 0x90, 0x90, 0x90, 0xE0,
   0xF0, 0x80, 0xF0, 0x80, 0xF0,
   0xF0, 0x80, 0xF0, 0x80, 0x80]

/-- Parameter `RAND` (R7, D20): the byte of the `n`-th draw, any of 0..255. A free value: it has no body. Safe: log 2. -/
opaque rand : Nat → Byte

/-- The host's tick where State holds none that the host has already sent: any snapshot, any `run` (R101, R110, D23). A free
value: it has no body. Safe: log 1. -/
opaque hostTick : Nat → HostTick

end Config

end Sys2Proof
end

