-- ==== Sys2Proof/Machine/Memory.lean ====
section
/-! DEFINITION. The 4096-byte memory (20_memory.md R29) as plain data: the cells that differ from the reset contents, in rising
order of address. Range checks are the machine's (Machine/Ops.lean, R31). -/

namespace Sys2Proof.Machine

/-- Memory as the list of its cells that differ from what an unlisted address reads as. -/
abbrev Memory := List Host.Cell

/-- What an unlisted address reads as: the reset contents with no cartridge, that is FONT from 0x000 and zero elsewhere
(70_reset_and_hazards.md R112, R115; 10_state.md R28). See log 4. -/
def Memory.unlisted (a : Nat) : Byte := Config.font.getD a 0#8

/-- The byte at `a` (R32 without its range check). -/
def Memory.read : Memory → Nat → Byte
  | [], a => Memory.unlisted a
  | (k, b) :: m, a => if k = a then b else Memory.read m a

/-- The memory without its cell at `a`. -/
def Memory.erase : Memory → Nat → Memory
  | [], _ => []
  | (k, b) :: m, a => if k = a then Memory.erase m a else (k, b) :: Memory.erase m a

/-- The memory with a cell placed before the first one of a higher address. -/
def Memory.place : Memory → Nat → Byte → Memory
  | [], a, v => [(a, v)]
  | (k, b) :: m, a, v => if a < k then (a, v) :: (k, b) :: m else (k, b) :: Memory.place m a v

/-- The memory with the byte at `a` set to `v` (R33 without its range check), in the canonical form. -/
def Memory.write (m : Memory) (a : Nat) (v : Byte) : Memory :=
  if v = Memory.unlisted a then Memory.erase m a else Memory.place (Memory.erase m a) a v

/-- The canonical form: addresses below 4096 and strictly rising, and no cell equal to what its address reads as unlisted. -/
def Memory.wf : Memory → Bool
  | [] => true
  | (k, b) :: m =>
    decide (k < Config.memSize) && (b != Memory.unlisted k) && m.all (fun c => decide (k < c.1)) && Memory.wf m

/-- `load(base, bytes)` (70_reset_and_hazards.md R113): bytes at or above 4096 are dropped without a fault. -/
def Memory.load (m : Memory) (base : Nat) : List Byte → Memory
  | [] => m
  | b :: bs => Memory.load (if base < Config.memSize then m.write base b else m) (base + 1) bs

/-- Memory with every byte zero, the first step of reset (R112). -/
def Memory.zeroed : Memory := Memory.load [] Config.fontBase (List.replicate Config.font.length 0#8)

end Sys2Proof.Machine
end

