-- ==== Sys2Proof/Machine/State.lean ====
section
/-! DEFINITION. The machine's state (10_state.md R13), its faults (60_exceptions.md R94) and the state after reset (R28). -/

namespace Sys2Proof.Machine

/-- The faults of the hardware, with the information each records (60_exceptions.md R94). An instruction or a fetch that meets one
TAKES it: the next state is halted and holds the record (R95). Safe: a halted state is never a successful end (R111). -/
inductive FaultCause where
  /-- Code 1: an access to `address ≥ 4096`, by the fetch, `draw`, `bcd`, `store-range`, `load-range`. -/
  | memoryOutOfRange (address : Nat)
  /-- Code 2: `call` with 16 return addresses on the stack. -/
  | stackOverflow
  /-- Code 3: `return` with an empty stack. -/
  | stackUnderflow
  /-- Code 4: a register index outside 0..15. The check stands where the index is a loop counter, and never fails (R94). -/
  | registerIndexOutOfRange (index : Nat)
  /-- Code 5: a key skip with `Vx ≥ 16` (D19). -/
  | keyIndexOutOfRange (value : Byte)
  /-- Code 6: `x = 15` in a flag-writing ALU instruction under the policy `fault` (D7). -/
  | vfOperandConflict (opcode : Word)
deriving DecidableEq, Repr

/-- The diagnostic of a halt (R94, R95, D33): the cause with its information, the `PC` of the instruction that faulted, and its
opcode if the fetch succeeded. -/
structure Diagnostic where
  /-- The fault and its information. -/
  cause : FaultCause
  /-- The address of the faulting instruction. -/
  pc : Word
  /-- Its opcode, if fetched. -/
  opcode : Option Word
deriving DecidableEq, Repr

/-- Why a step answers no next state. -/
inductive Fault where
  /-- Raised by `tick` on a halted machine: "no later tick has a step" (R95, R101). It hands out the diagnostic of the halt. Safe. -/
  | machineHalted (diagnostic : Option Diagnostic)
deriving DecidableEq, Repr

/-- Why an instruction has no meaning in the model. -/
inductive Refusal where
  /-- An arm of `exec` whose instruction has no meaning yet, by its mnemonic; no arm answers it. Safe. -/
  | notModelled (mnemonic : String)
deriving DecidableEq, Repr

/-- The two program-counter outcomes of an instruction (10_state.md R19). -/
inductive PcOutcome where
  /-- `Advance(k)`: forward by `k` slots. -/
  | advance (k : Nat)
  /-- `Jump(a)`: to the absolute address `a`, an exact number. -/
  | jump (a : Nat)
deriving DecidableEq, Repr

/-- The complete state of the CORE (R13), and after it the model's own fields. -/
structure State where
  /-- `V[0..15]` (R14). -/
  v : Vector Byte 16
  /-- `I`, the index register (R17). -/
  i : Word
  /-- `PC`: the address of the instruction being executed (R18). -/
  pc : Word
  /-- `stack[0..15]` (R21). -/
  stack : Vector Word 16
  /-- `SP`: how many entries are in use, 0..16 (R21). -/
  sp : Fin 17
  /-- The delay timer (R23). -/
  delay : Byte
  /-- The sound timer (R23). -/
  sound : Byte
  /-- The keymap snapshot (R24). -/
  keys : Keymap
  /-- The framebuffer (R25). -/
  fb : Framebuffer
  /-- `mem[0..4095]` (20_memory.md R29). -/
  mem : Memory
  /-- True once a fatal condition has occurred (R26). -/
  halted : Bool
  /-- Which one, and where (R26). -/
  fault : Option Diagnostic
  /-- The model's own: parameter `VF_OPERAND_POLICY` (00_scope.md R7), which no step writes. See log 3. -/
  vfPolicy : VFOperandPolicy
  /-- The model's own: how many bytes parameter `RAND` has delivered (R7). See log 2. -/
  randDraws : Nat
  /-- The model's own: the ticks the host has already sent, oldest first (60_exceptions.md R110). See log 1. -/
  hostTicks : List HostTick
  /-- The model's own: how many ticks came from the free value `Config.hostTick`. See log 1. -/
  tickDraws : Nat
  /-- The model's own: the framebuffer snapshot the last completed tick offered to the renderer, none before the first (60_exceptions.md
  R101 `render <- fb`, R104). No instruction reads it. See log 26. -/
  render : Option Framebuffer
deriving DecidableEq, Repr

/-- The machine right after reset with no cartridge (10_state.md R28, 70_reset_and_hazards.md R112): memory lists nothing, so it
reads as FONT and zero. The policy is the spec's default (43_alu.md R70). -/
def State.reset : State where
  v := Vector.replicate 16 0#8
  i := 0#16
  pc := 0x200#16
  stack := Vector.replicate 16 0#16
  sp := 0
  delay := 0#8
  sound := 0#8
  keys := Vector.replicate 16 false
  fb := Vector.replicate 32 (Vector.replicate 64 false)
  mem := []
  halted := false
  fault := none
  vfPolicy := .flagLast
  randDraws := 0
  hostTicks := []
  tickDraws := 0
  render := none

end Sys2Proof.Machine
end

