-- ==== Sys2Proof/Machine/Ops.lean ====
section
/-! DEFINITION. The named operations of the pseudocode (00_scope.md R10): registers, timers, stack, framebuffer, memory access,
the program counter's outcomes, and taking a fault. -/

namespace Sys2Proof.Machine

/-- What a step, a cycle or an instruction answers. -/
abbrev Result := Host.Outcome State Fault Refusal

/-! ## One update per piece of state -/

/-- `V[x]` (R10, R14): no register is hard-wired. -/
def State.reg (s : State) (x : Nibble) : Byte := s.v[x.toNat]'x.isLt

/-- `V[x] <- b` (R10, R14). -/
def State.setReg (s : State) (x : Nibble) (b : Byte) : State := { s with v := s.v.set x.toNat b x.isLt }

/-- `I <- w` (10_state.md R17). -/
def State.setI (s : State) (w : Word) : State := { s with i := w }

/-- The one write of `PC`; only `applyPc` uses it (30_encoding.md R53). -/
def State.setPc (s : State) (w : Word) : State := { s with pc := w }

/-- `stack` and `SP` after a push or a pop (10_state.md R21). -/
def State.setStack (s : State) (stack : Vector Word 16) (sp : Fin 17) : State := { s with stack := stack, sp := sp }

/-- `delay <- b` (10_state.md R23). -/
def State.setDelayTimer (s : State) (b : Byte) : State := { s with delay := b }

/-- `sound <- b` (10_state.md R23). -/
def State.setSoundTimer (s : State) (b : Byte) : State := { s with sound := b }

/-- `keys <- snapshot`, all 16 at once (60_exceptions.md R101, R105). -/
def State.latchKeys (s : State) (snapshot : Keymap) : State := { s with keys := snapshot }

/-- The framebuffer replaced (10_state.md R25). -/
def State.setFb (s : State) (fb : Framebuffer) : State := { s with fb := fb }

/-- The memory replaced (20_memory.md R33). -/
def State.setMem (s : State) (m : Memory) : State := { s with mem := m }

/-- One byte of `RAND` used up (00_scope.md R7). -/
def State.nextRand (s : State) : State := { s with randDraws := s.randDraws + 1 }

/-- The tick taken from those the host has already sent, or else from the free value (log 1). -/
def State.popTick (s : State) : State :=
  match s.hostTicks with
  | [] => { s with tickDraws := s.tickDraws + 1 }
  | _ :: rest => { s with hostTicks := rest }

/-- What the host sends with the next tick (60_exceptions.md R101, R110). -/
def State.nextTick (s : State) : HostTick :=
  match s.hostTicks with
  | [] => Config.hostTick s.tickDraws
  | t :: _ => t

/-! ## The program counter -/

/-- `apply(out)` (30_encoding.md R53, 10_state.md R19): the sum is exact and then narrowed to 16 bits. -/
def State.applyPc (s : State) : PcOutcome → State
  | .advance k => s.setPc (BitVec.ofNat 16 (s.pc.toNat + Config.slot * k))
  | .jump a => s.setPc (BitVec.ofNat 16 a)

/-! ## Taking a fault -/

/-- The code of a fault in the diagnostic (60_exceptions.md R94, D33). -/
def FaultCause.code : FaultCause → Nat
  | .memoryOutOfRange _ => 1
  | .stackOverflow => 2
  | .stackUnderflow => 3
  | .registerIndexOutOfRange _ => 4
  | .keyIndexOutOfRange _ => 5
  | .vfOperandConflict _ => 6

/-- Taking a fault (60_exceptions.md R95): the machine halts and records the cause, the `PC` of the faulting instruction and its
opcode if fetched. Nothing else changes; there is no handler and no return (R97). -/
def State.halt (s : State) (cause : FaultCause) (op : Option Word) : State :=
  { s with halted := true, fault := some { cause := cause, pc := s.pc, opcode := op } }

/-- What the body of an instruction that can fault leaves: the state, and the fault it raised if it did. The effects made before
the fault are in the state (44_index_memory.md R83, D11). -/
inductive Effect where
  /-- The body ran to its end. -/
  | done (s : State)
  /-- A check failed: nothing after it happened. -/
  | raised (cause : FaultCause) (s : State)
deriving DecidableEq, Repr

/-- The end of an instruction that raised nothing: its outcome is applied (30_encoding.md R52, R53). -/
def complete (out : PcOutcome) (s : State) : Result := .next (s.applyPc out)

/-- The end of an instruction that may have raised: the outcome is applied, or the fault is taken with no outcome applied (R52, R95). -/
def finish (op : Word) (out : PcOutcome) : Effect → Result
  | .done s => complete out s
  | .raised cause s => .next (s.halt cause (some op))

/-! ## Memory access -/

/-- `MemRead(a, 1)` (20_memory.md R32): the address is exact and is checked first (R31). -/
def State.memRead (s : State) (a : Nat) : Except FaultCause Byte :=
  if a < Config.memSize then .ok (s.mem.read a) else .error (.memoryOutOfRange a)

/-- `MemWrite(a, 1, v)` (20_memory.md R33). -/
def State.memWrite (s : State) (a : Nat) (b : Byte) : Effect :=
  if a < Config.memSize then .done (s.setMem (s.mem.write a b)) else .raised (.memoryOutOfRange a) s

/-- `MemRead(a, 2)`: the opcode at `a`, big-endian, the high byte's address checked first (20_memory.md R34, 60_exceptions.md R96). -/
def State.fetchWord (s : State) (a : Nat) : Except FaultCause Word :=
  match s.memRead a with
  | .error cause => .error cause
  | .ok hi =>
    match s.memRead (a + 1) with
    | .error cause => .error cause
    | .ok lo => .ok (opOfBytes hi lo)

/-- Bytes written at rising addresses from `a`, up to the first one out of range (44_index_memory.md R83). -/
def storeBytes (a : Nat) : List Byte → State → Effect
  | [], s => .done s
  | b :: bs, s =>
    match s.memWrite a b with
    | .done s' => storeBytes (a + 1) bs s'
    | .raised cause s' => .raised cause s'

/-- A register written by a loop counter: an index outside 0..15 is a fatal fault (60_exceptions.md R94 code 4, unreachable). -/
def State.setRegAt (s : State) (k : Nat) (b : Byte) : Effect :=
  if k < 16 then .done (s.setReg (BitVec.ofNat 4 k) b) else .raised (.registerIndexOutOfRange k) s

/-- `count` registers from `Vk` on loaded from rising addresses from `a`, up to the first byte out of range (R83, R89). -/
def loadRegs : (count a k : Nat) → State → Effect
  | 0, _, _, s => .done s
  | count + 1, a, k, s =>
    match s.memRead a with
    | .error cause => .raised cause s
    | .ok b =>
      match s.setRegAt k b with
      | .done s' => loadRegs count (a + 1) (k + 1) s'
      | .raised cause s' => .raised cause s'

/-! ## The call stack -/

/-- A push (10_state.md R21, R22): `stack[SP] <- a`, then `SP <- SP + 1`; with 16 entries in use, `StackOverflow`. -/
def State.push (s : State) (a : Word) : Effect :=
  if h : s.sp.val < Config.stackDepth then
    .done (s.setStack (s.stack.set s.sp.val a h) ⟨s.sp.val + 1, Nat.succ_lt_succ h⟩)
  else .raised .stackOverflow s

/-- A pop (10_state.md R21, R22): `SP <- SP - 1`, then `stack[SP]` is read; with none in use, `StackUnderflow`. The entry keeps its
value (41_control_flow.md R58). -/
def State.pop (s : State) : Except FaultCause (Word × State) :=
  if h : s.sp.val = 0 then .error .stackUnderflow
  else
    have bound : s.sp.val - 1 < 16 := by omega
    .ok (s.stack[s.sp.val - 1], s.setStack s.stack ⟨s.sp.val - 1, Nat.lt_succ_of_lt bound⟩)

/-! ## The framebuffer -/

/-- `FbRead(row, col)` (10_state.md R25); the caller has wrapped the coordinates. -/
def Framebuffer.read (fb : Framebuffer) (row : Fin 32) (col : Fin 64) : Bool := fb[row][col]

/-- `FbWrite(row, col, bit)` (10_state.md R25). -/
def Framebuffer.write (fb : Framebuffer) (row : Fin 32) (col : Fin 64) (bit : Bool) : Framebuffer :=
  fb.set row.val (fb[row].set col.val bit)

/-- `FbClear()`: zero-fills every pixel (10_state.md R25). -/
def Framebuffer.clear : Framebuffer := Vector.replicate 32 (Vector.replicate 64 false)

/-- `FbRead` on the state. -/
def State.pixel (s : State) (row : Fin 32) (col : Fin 64) : Bool := Framebuffer.read s.fb row col

/-! ## The timers -/

/-- A timer's decrement: by 1 when non-zero, floored at zero (60_exceptions.md R102). -/
def decrement (b : Byte) : Byte := if b.toNat > 0 then BitVec.ofNat 8 (b.toNat - 1) else b

/-- `timers_decrement()`: each timer on its own value (60_exceptions.md R102). -/
def State.timersDecrement (s : State) : State := (s.setDelayTimer (decrement s.delay)).setSoundTimer (decrement s.sound)

/-! ## The end of a tick -/

/-- `render <- fb`: the framebuffer as it now is, offered to the renderer as a snapshot (60_exceptions.md R101, R104). -/
def State.offerFrame (s : State) : State := { s with render := some s.fb }

/-- The end of a tick that has not faulted: `timers_decrement()`, then `render <- fb` (60_exceptions.md R101). -/
def State.endTick (s : State) : State := s.timersDecrement.offerFrame

/-! ## Placing an instruction where the next fetch finds it -/

/-- The opcode stored at `PC` and `PC + 1`, high byte first (20_memory.md R35); a byte at or above 4096 is dropped, as a loader does
(70_reset_and_hazards.md R113). -/
def State.placeOpcode (s : State) (op : Word) : State :=
  s.setMem (s.mem.load s.pc.toNat [opHi op, opLo op])

/-- A tick that runs a cycle and keeps the keymap, sent before any other (60_exceptions.md R101). -/
def State.sendRunTick (s : State) : State := { s with hostTicks := { snapshot := s.keys, run := true } :: s.hostTicks }

end Sys2Proof.Machine
end

