-- ==== Sys2Proof/Machine/Flags.lean ====
section
/-! DEFINITION. The results and the flags of the ALU instructions (43_alu.md R69 to R81) and how both are written (R70). Each is
computed exactly on numbers and then narrowed (00_scope.md R9). -/

namespace Sys2Proof.Machine

/-- A flag value: 1 or 0 (10_state.md R15). -/
def flagByte (b : Bool) : Byte := if b then 1#8 else 0#8

/-- `(a + b) mod 256` (R69). -/
def addResult (a b : Byte) : Byte := BitVec.ofNat 8 (a.toNat + b.toNat)

/-- The carry: 1 iff `a + b > 255` (R77). -/
def addCarry (a b : Byte) : Byte := flagByte (decide (a.toNat + b.toNat > 255))

/-- `(a - b) mod 256` (R69): the exact difference modulo 256, computed as `a + 256 - b`. -/
def subResult (a b : Byte) : Byte := BitVec.ofNat 8 (a.toNat + 256 - b.toNat)

/-- `sub`'s flag: 1 iff `a ≥ b`, no borrow (R78). -/
def noBorrow (a b : Byte) : Byte := flagByte (decide (a.toNat ≥ b.toNat))

/-- `subn`'s flag: 1 iff `b > a`, strictly (R79, 90_conflicts.md C8). -/
def strictlyAbove (a b : Byte) : Byte := flagByte (decide (b.toNat > a.toNat))

/-- `a >> 1` (R80). -/
def shrResult (a : Byte) : Byte := a >>> 1

/-- The bit `shr` shifts out: bit 0 (R80). -/
def shrOut (a : Byte) : Byte := flagByte (a.getLsbD 0)

/-- `(a << 1) mod 256` (R81). -/
def shlResult (a : Byte) : Byte := a <<< 1

/-- The bit `shl` shifts out: bit 7 (R81). -/
def shlOut (a : Byte) : Byte := flagByte (a.getLsbD 7)

/-- `set_with_flag(x, res, f)` of the instruction with opcode `op` (R70): the result to `Vx` and the flag to `VF`; with `x = 15` as
the policy says. -/
def setWithFlag (op : Word) (x : Nibble) (res f : Byte) (s : State) : Effect :=
  if x ≠ vF then .done ((s.setReg x res).setReg vF f)
  else
    match s.vfPolicy with
    | .flagLast => .done ((s.setReg vF res).setReg vF f)
    | .resultLast => .done ((s.setReg vF f).setReg vF res)
    | .fault => .raised (.vfOperandConflict op) s

/-- The end of a flag-writing ALU instruction (R70): both values written, then `Advance(1)`. -/
def aluWithFlag (op : Word) (x : Nibble) (res f : Byte) (s : State) : Result :=
  finish op (.advance 1) (setWithFlag op x res f s)

end Sys2Proof.Machine
end

