-- ==== Sys2Proof/Machine/Operands.lean ====
section
/-! DEFINITION. The operand forms (30_encoding.md R48): registers, zero-extended immediates, and the implicit operands. -/

namespace Sys2Proof.Machine

/-- `NNN` as an address: zero-extended, exact (R48). -/
def addrOperand (nnn : Addr12) : Nat := nnn.toNat

/-- `N`: the row count of `draw`, 0..15 (R48). -/
def rowCount (n : Nibble) : Nat := n.toNat

/-- `I + k`: the effective address of the `k`-th byte, an exact sum (44_index_memory.md R83, 20_memory.md R31). -/
def State.dataAddr (s : State) (k : Nat) : Nat := s.i.toNat + k

/-- `V0`, the implicit operand of `jump-plus-v0` (R48). -/
def State.v0 (s : State) : Byte := s.reg 0#4

/-- The values of `V0`..`Vx`, the implicit operands of `store-range` (R48). -/
def State.regsUpTo (s : State) (x : Nibble) : List Byte := s.v.toList.take (x.toNat + 1)

/-- How many registers `V0`..`Vx` are, for `load-range` (R48). -/
def rangeCount (x : Nibble) : Nat := x.toNat + 1

/-- `keys[k]` for a key index taken from a register's value: at or above 16, `KeyIndexOutOfRange` (42_skip.md R67, D19). -/
def State.keyAt (s : State) (k : Byte) : Except FaultCause Bool :=
  if h : k.toNat < 16 then .ok s.keys[k.toNat] else .error (.keyIndexOutOfRange k)

/-- The lowest-indexed pressed key, if any (45_timers_keys.md R91). -/
def State.lowestKey (s : State) : Option (Fin 16) := (List.finRange 16).find? (fun k => s.keys[k])

/-- The three decimal digits of a byte, most significant first (44_index_memory.md R87). -/
def bcdDigits (b : Byte) : List Byte :=
  [BitVec.ofNat 8 (b.toNat / 100), BitVec.ofNat 8 (b.toNat / 10 % 10), BitVec.ofNat 8 (b.toNat % 10)]

/-- The address of the glyph numbered `b`: the whole byte times the stride (44_index_memory.md R86). -/
def glyphAddr (b : Byte) : Word := BitVec.ofNat 16 (Config.fontBase + b.toNat * Config.fontStride)

end Sys2Proof.Machine
end

