-- ==== Sys2Proof/Machine/Alu.lean ====
section
/-! DEFINITION. The register and ALU family (43_alu.md). All end in `Advance(1)`. -/

namespace Sys2Proof.Machine

/-- An ordinary result in `Vx`, with no flag, then `Advance(1)`. -/
def writeReg (x : Nibble) (b : Byte) (s : State) : Result := complete (.advance 1) (s.setReg x b)

/-- load-imm (R71). -/
def execLoadImm (x : Nibble) (nn : Byte) (s : State) : Result := writeReg x nn s

/-- add-imm: wraps, no flag (R73). -/
def execAddImm (x : Nibble) (nn : Byte) (s : State) : Result := writeReg x (addResult (s.reg x) nn) s

/-- load-reg (R72). -/
def execLoadReg (x y : Nibble) (s : State) : Result := writeReg x (s.reg y) s

/-- or (R74). -/
def execOrReg (x y : Nibble) (s : State) : Result := writeReg x (s.reg x ||| s.reg y) s

/-- and (R75). -/
def execAndReg (x y : Nibble) (s : State) : Result := writeReg x (s.reg x &&& s.reg y) s

/-- xor (R76). -/
def execXorReg (x y : Nibble) (s : State) : Result := writeReg x (s.reg x ^^^ s.reg y) s

/-- add-reg (R77). -/
def execAddReg (x y : Nibble) (s : State) : Result :=
  aluWithFlag (encode (.addReg x y)) x (addResult (s.reg x) (s.reg y)) (addCarry (s.reg x) (s.reg y)) s

/-- sub (R78). -/
def execSub (x y : Nibble) (s : State) : Result :=
  aluWithFlag (encode (.sub x y)) x (subResult (s.reg x) (s.reg y)) (noBorrow (s.reg x) (s.reg y)) s

/-- shr: `Vy` is not read (R80). -/
def execShr (x y : Nibble) (s : State) : Result :=
  aluWithFlag (encode (.shr x y)) x (shrResult (s.reg x)) (shrOut (s.reg x)) s

/-- subn: `Vy - Vx`, the flag strict (R79). -/
def execSubn (x y : Nibble) (s : State) : Result :=
  aluWithFlag (encode (.subn x y)) x (subResult (s.reg y) (s.reg x)) (strictlyAbove (s.reg x) (s.reg y)) s

/-- shl: `Vy` is not read (R81, D15). -/
def execShl (x y : Nibble) (s : State) : Result :=
  aluWithFlag (encode (.shl x y)) x (shlResult (s.reg x)) (shlOut (s.reg x)) s

/-- rand: a fresh free byte, masked (R82, D20; log 2). -/
def execRand (x : Nibble) (nn : Byte) (s : State) : Result :=
  writeReg x (Config.rand s.randDraws &&& nn) s.nextRand

end Sys2Proof.Machine
end

