-- ==== Sys2Proof/Machine/Control.lean ====
section
/-! DEFINITION. The control-transfer family (41_control_flow.md): return, jump, call, jump-plus-v0. Their outcome is `Jump`; a
target is never checked when it is set (R57). -/

namespace Sys2Proof.Machine

/-- return: the top return address, used as it is, becomes `PC`; an empty stack raises `StackUnderflow` (R58). -/
def execRet (s : State) : Result :=
  match s.pop with
  | .error cause => finish (encode .ret) (.advance 0) (.raised cause s)
  | .ok (a, s') => complete (.jump a.toNat) s'

/-- jump (R59). -/
def execJump (nnn : Addr12) (s : State) : Result := complete (.jump (addrOperand nnn)) s

/-- call: the address of the next instruction is pushed, or `StackOverflow` is raised (R60, 90_conflicts.md C4). -/
def execCall (nnn : Addr12) (s : State) : Result :=
  finish (encode (.call nnn)) (.jump (addrOperand nnn)) (s.push (BitVec.ofNat 16 (s.pc.toNat + Config.slot)))

/-- jump-plus-v0: the exact sum, not reduced (R61, D16). -/
def execJumpPlusV0 (nnn : Addr12) (s : State) : Result := complete (.jump (s.v0.toNat + addrOperand nnn)) s

end Sys2Proof.Machine
end

