-- ==== Sys2Proof/Machine/Display.lean ====
section
/-! DEFINITION. The display family (40_display.md): clear-screen and draw. -/

namespace Sys2Proof.Machine

/-- clear-screen: every pixel 0 (R55). -/
def execClearScreen (s : State) : Result := complete (.advance 1) (s.setFb Framebuffer.clear)

/-- One pixel of a sprite (R56): a set pixel that meets a set bit ORs 1 into `VF`; the pixel becomes `old XOR bit`. -/
def drawPixel (row : Fin 32) (col : Fin 64) (bit : Bool) (s : State) : State :=
  let old := s.pixel row col
  let s' := if old && bit then s.setReg vF (s.reg vF ||| 1#8) else s
  s'.setFb (Framebuffer.write s'.fb row col (old ^^ bit))

/-- `count` columns of a sprite row from column `c` on (R56): bit 7 is column 0 (D17), and coordinates wrap modulo 64 and 32. -/
def drawCols (b : Byte) (vx row : Nat) : (count c : Nat) → State → State
  | 0, _, s => s
  | count + 1, c, s =>
    drawCols b vx row count (c + 1) (drawPixel (Fin.ofNat 32 row) (Fin.ofNat 64 (vx + c)) (b.getLsbD (7 - c)) s)

/-- `count` rows of a sprite from row `r` on (R56): the row's byte is read from `I + r`, and rows before a byte out of range stay
drawn (D11). -/
def drawRows (vx vy : Nat) : (count r : Nat) → State → Effect
  | 0, _, s => .done s
  | count + 1, r, s =>
    match s.memRead (s.dataAddr r) with
    | .error cause => .raised cause s
    | .ok b => drawRows vx vy count (r + 1) (drawCols b vx (vy + r) 8 0 s)

/-- draw (R56): the coordinates are read before `VF` is set to 0 (D6); `n = 0` draws no row (D18). -/
def execDraw (x y n : Nibble) (s : State) : Result :=
  finish (encode (.draw x y n)) (.advance 1)
    (drawRows (s.reg x).toNat (s.reg y).toNat (rowCount n) 0 (s.setReg vF 0#8))

end Sys2Proof.Machine
end

