-- ==== Sys2Proof/Machine/Index.lean ====
section
/-! DEFINITION. The index-register and memory family (44_index_memory.md). All end in `Advance(1)`; no memory access changes
`I` (R83). -/

namespace Sys2Proof.Machine

/-- load-index (R84). -/
def execLoadIndex (nnn : Addr12) (s : State) : Result :=
  complete (.advance 1) (s.setI (BitVec.ofNat 16 (addrOperand nnn)))

/-- add-index: wraps at 16 bits, no flag (R85). -/
def execAddIndex (x : Nibble) (s : State) : Result :=
  complete (.advance 1) (s.setI (BitVec.ofNat 16 (s.i.toNat + (s.reg x).toNat)))

/-- font-addr: the whole byte is multiplied (R86). -/
def execFontAddr (x : Nibble) (s : State) : Result := complete (.advance 1) (s.setI (glyphAddr (s.reg x)))

/-- bcd: three digits at `I`, `I + 1`, `I + 2` (R87). -/
def execBcd (x : Nibble) (s : State) : Result :=
  finish (encode (.bcd x)) (.advance 1) (storeBytes (s.dataAddr 0) (bcdDigits (s.reg x)) s)

/-- store-range: `V0`..`Vx` to `I`..`I + x` (R88). -/
def execStoreRange (x : Nibble) (s : State) : Result :=
  finish (encode (.storeRange x)) (.advance 1) (storeBytes (s.dataAddr 0) (s.regsUpTo x) s)

/-- load-range: `I`..`I + x` to `V0`..`Vx` (R89). -/
def execLoadRange (x : Nibble) (s : State) : Result :=
  finish (encode (.loadRange x)) (.advance 1) (loadRegs (rangeCount x) (s.dataAddr 0) 0 s)

end Sys2Proof.Machine
end

