-- ==== Sys2Proof/Machine/Skip.lean ====
section
/-! DEFINITION. The conditional skips (42_skip.md). -/

namespace Sys2Proof.Machine

/-- The outcome of a skip (R62): `Advance(2)` when the condition holds, `Advance(1)` otherwise. -/
def skipOutcome (condition : Bool) : PcOutcome := .advance (if condition then 2 else 1)

/-- The end of a skip: no register, flag, memory byte or timer is written (R62). -/
def skipIf (condition : Bool) (s : State) : Result := complete (skipOutcome condition) s

/-- The end of a key skip (R67, R68): the key's state, compared with the wanted one, or the fault of a key index out of range. -/
def keySkip (op : Word) (key : Byte) (wanted : Bool) (s : State) : Result :=
  match s.keyAt key with
  | .error cause => finish op (.advance 0) (.raised cause s)
  | .ok pressed => skipIf (pressed == wanted) s

/-- skip-eq-imm (R63). -/
def execSkipEqImm (x : Nibble) (nn : Byte) (s : State) : Result := skipIf (s.reg x == nn) s

/-- skip-ne-imm (R64). -/
def execSkipNeImm (x : Nibble) (nn : Byte) (s : State) : Result := skipIf (s.reg x != nn) s

/-- skip-eq-reg (R65). -/
def execSkipEqReg (x y : Nibble) (s : State) : Result := skipIf (s.reg x == s.reg y) s

/-- skip-ne-reg (R66). -/
def execSkipNeReg (x y : Nibble) (s : State) : Result := skipIf (s.reg x != s.reg y) s

/-- skip-key-pressed: the key index is the register's value (R67). -/
def execSkipKeyPressed (x : Nibble) (s : State) : Result := keySkip (encode (.skipKeyPressed x)) (s.reg x) true s

/-- skip-key-not-pressed (R68). -/
def execSkipKeyNotPressed (x : Nibble) (s : State) : Result := keySkip (encode (.skipKeyNotPressed x)) (s.reg x) false s

end Sys2Proof.Machine
end

