-- ==== Sys2Proof/Machine/TimersKeys.lean ====
section
/-! DEFINITION. The timer and key-wait family (45_timers_keys.md). -/

namespace Sys2Proof.Machine

/-- load-delay (R90). -/
def execLoadDelay (x : Nibble) (s : State) : Result := complete (.advance 1) (s.setReg x s.delay)

/-- wait-key: the lowest pressed key to `Vx`; with none pressed nothing is written and the instruction repeats (R91). -/
def execWaitKey (x : Nibble) (s : State) : Result :=
  match s.lowestKey with
  | some k => complete (.advance 1) (s.setReg x (BitVec.ofNat 8 k.val))
  | none => complete (.advance 0) s

/-- set-delay (R92). -/
def execSetDelay (x : Nibble) (s : State) : Result := complete (.advance 1) (s.setDelayTimer (s.reg x))

/-- set-sound (R93). -/
def execSetSound (x : Nibble) (s : State) : Result := complete (.advance 1) (s.setSoundTimer (s.reg x))

end Sys2Proof.Machine
end

