-- ==== Sys2Proof/Machine/Cycle.lean ====
section
/-! DEFINITION. The cycle (30_encoding.md R52) and the host's tick around it (60_exceptions.md R101). -/

namespace Sys2Proof.Machine

/-- An opcode that selects no row: nothing is written, `Advance(1)` (30_encoding.md R50). It is a designed fallback, no fault. -/
def execUnknown (_op : Word) (s : State) : Result := complete (.advance 1) s

/-- The opcode fetch at `PC` (20_memory.md R34). -/
def State.fetch (s : State) : Except FaultCause Word := s.fetchWord s.pc.toNat

/-- What runs once an opcode is decoded (R52). -/
def execDecoded (d : Decoded) (s : State) : Result :=
  match d with
  | .instr i => exec i s
  | .unknown op => execUnknown op s

/-- `cycle()` (R52): fetch, decode, execute and apply the outcome. A fetch that fails is a fault with no opcode (60_exceptions.md
R94, R96). -/
def cycle (s : State) : Result :=
  match s.fetch with
  | .error cause => .next (s.halt cause none)
  | .ok op => execDecoded (decode op) s

/-- The end of a tick after its cycle: the timers are decremented and the framebuffer is offered, unless the cycle faulted: then the
tick has ended, and the renderer keeps the snapshot of the tick before (60_exceptions.md R95, R101, R104). -/
def afterCycle (s : State) : State := if s.halted then s else s.endTick

/-- `tick(snapshot, run)` (60_exceptions.md R101, D22, D23, D24): a halted machine has no step; else the keys are latched, zero or
one cycle runs, the timers are decremented and the framebuffer is offered to the renderer. -/
def tick (snapshot : Keymap) (run : Bool) (s : State) : Result :=
  if s.halted then .fault (.machineHalted s.fault)
  else if run then
    match cycle (s.latchKeys snapshot) with
    | .next s' => .next (afterCycle s')
    | .fault r => .fault r
    | .refused r => .refused r
  else .next (s.latchKeys snapshot).endTick

/-- The ticks of a host, in order; the machine stops at a tick of a halted machine (60_exceptions.md R111). -/
def runTicks : List HostTick → State → Result
  | [], s => .next s
  | t :: ts, s =>
    match tick t.snapshot t.run s with
    | .next s' => runTicks ts s'
    | .fault r => .fault r
    | .refused r => .refused r

end Sys2Proof.Machine
end

