-- ==== Sys2Proof/Machine/Step.lean ====
section
/-! DEFINITION. The step of the machine: one tick of the host (60_exceptions.md R101). See log 1. -/

namespace Sys2Proof.Machine

/-- One tick: what the host sends (`nextTick`) is taken from the state and the tick runs (R101). -/
def step (s : State) : Host.Outcome State Fault Refusal := tick s.nextTick.snapshot s.nextTick.run s.popTick

/-- The state with an opcode of the table placed where the next fetch reads, and a tick sent that runs a cycle with the keymap as it
is, so that the very next step of a machine that has not halted fetches and runs it. See log 8. -/
def State.withFetchWord (s : State) (nbits w : Nat) : State := (s.placeOpcode (tableWord nbits w)).sendRunTick

end Sys2Proof.Machine
end

