-- ==== Sys2Proof/Machine/Boot.lean ====
section
/-! DEFINITION. Reset with any font and cartridge (70_reset_and_hazards.md R112): what the host does before the first tick. -/

namespace Sys2Proof.Machine

/-- `reset(cartridge)` with parameter FONT (R112): memory zeroed, then the font from 0x000, then the cartridge from 0x200, each byte
at or above 4096 dropped (R113, R114); every other piece of state as 10_state.md R28 says. -/
def State.boot (font cartridge : List Byte) : State :=
  State.reset.setMem (Memory.load (Memory.load Memory.zeroed Config.fontBase font) Config.programBase cartridge)

end Sys2Proof.Machine
end

