-- ==== Sys2Proof/Machine/HostView.lean ====
section
/-! DEFINITION. What the host reads from the CORE between ticks (60_exceptions.md R106, R110). The framebuffer snapshot of R104 is the
field `State.render`, which the end of a tick writes. -/

namespace Sys2Proof.Machine

/-- Whether the tone is on: while `sound ≠ 0` (R106, D28). -/
def State.toneOn (s : State) : Bool := s.sound != 0#8

/-- The diagnostic of a halt, if the machine has halted (R94, R110). -/
def State.diagnostic (s : State) : Option Diagnostic := if s.halted then s.fault else none

end Sys2Proof.Machine
end

