-- ==== Sys2Proof/Safety.lean ====
section
/-! DEFINITION. What counts as a legal state and as a successful end of a run, in the terms the statements use. -/

namespace Sys2Proof.Machine

/-- The highest value `PC` takes: `jump-plus-v0` with `NNN = 0xFFF` and `V0 = 0xFF` (10_state.md R20). -/
abbrev maxPc : Nat := 0x10FE

/-- The highest return address: the slot after a call at 0xFFE (10_state.md R20, 41_control_flow.md R60). -/
abbrev maxReturn : Nat := 0x1000

/-- The invariant of the machine: memory is canonical, `PC` and every stack entry stay in the ranges of 10_state.md R20, and the
halt and its record go together (R26). -/
structure State.Inv (s : State) : Prop where
  /-- The memory keeps its canonical form, so all its cells are below 4096 (20_memory.md R29). -/
  memory : s.mem.wf = true
  /-- `PC ≤ 0x10FE` (R20). -/
  pc : s.pc.toNat ≤ maxPc
  /-- Every stack entry is at most 0x1000 (R20). -/
  returns : ∀ j : Fin 16, s.stack[j].toNat ≤ maxReturn
  /-- `fault` records a cause exactly when `halted` is true (R26). -/
  record : s.halted = s.fault.isSome

/-- A state that is a successful end of a run once the host stops ticking: not halted (60_exceptions.md R111). -/
def State.running (s : State) : Bool := !s.halted

/-- The host's ticks take `s` to the successful end `t` (60_exceptions.md R111). -/
def EndsAt (ticks : List HostTick) (s t : State) : Prop := runTicks ticks s = .next t ∧ t.running = true

/-- The pieces of the state, for saying what a step leaves alone. -/
inductive Part where
  /-- `V0`..`VF`. -/
  | v
  /-- `I`. -/
  | i
  /-- `PC`. -/
  | pc
  /-- `SP` and the stack entries. -/
  | stack
  /-- The delay timer. -/
  | delay
  /-- The sound timer. -/
  | sound
  /-- The keymap snapshot. -/
  | keys
  /-- The framebuffer. -/
  | fb
  /-- Memory, byte by byte. -/
  | mem
  /-- `halted` and `fault`. -/
  | halt
  /-- The parameter `VF_OPERAND_POLICY`. -/
  | policy
  /-- The count of `RAND` draws. -/
  | rand
  /-- The ticks the host sends. -/
  | ticks
  /-- The snapshot last offered to the renderer. -/
  | render
deriving DecidableEq, Repr

/-- The piece is the same in both states. Memory is compared through the read of one byte, at every address. -/
def Part.same (p : Part) (s t : State) : Prop :=
  match p with
  | .v => ∀ y, t.reg y = s.reg y
  | .i => t.i = s.i
  | .pc => t.pc = s.pc
  | .stack => t.sp = s.sp ∧ t.stack = s.stack
  | .delay => t.delay = s.delay
  | .sound => t.sound = s.sound
  | .keys => t.keys = s.keys
  | .fb => t.fb = s.fb
  | .mem => ∀ a, t.mem.read a = s.mem.read a
  | .halt => t.halted = s.halted ∧ t.fault = s.fault
  | .policy => t.vfPolicy = s.vfPolicy
  | .rand => t.randDraws = s.randDraws
  | .ticks => t.hostTicks = s.hostTicks ∧ t.tickDraws = s.tickDraws
  | .render => t.render = s.render

/-- Only the pieces listed may differ (92_eei_decisions.md D8). -/
def Frame (written : List Part) (s t : State) : Prop := ∀ p, p ∉ written → p.same s t

/-- The answer is a halted state with that record (60_exceptions.md R95). It says nothing of the state's other contents, on which
no claim may rest (D11). -/
def HaltsWith (r : Result) (d : Diagnostic) : Prop := ∃ t, r = .next t ∧ t.halted = true ∧ t.fault = some d

/-- The bit of a sprite of `n` rows at `I`, drawn at column `vx` and row `vy`, that falls on a pixel is 1 (40_display.md R56): a
sprite row `r` and a column `c` wrap to the pixel, and bit `7 - c` of the byte at `I + r` is set. -/
def SpriteCovers (s : State) (vx vy n : Nat) (row : Fin 32) (col : Fin 64) : Prop :=
  ∃ r c, r < n ∧ c < 8 ∧ (vy + r) % 32 = row.val ∧ (vx + c) % 64 = col.val ∧
    (s.mem.read (s.dataAddr r)).getLsbD (7 - c) = true

/-- Some pixel is set in `s` and covered by a set bit of the sprite: the collision of 40_display.md R56. -/
def Collides (s : State) (vx vy n : Nat) : Prop := ∃ row col, s.pixel row col = true ∧ SpriteCovers s vx vy n row col

end Sys2Proof.Machine
end

