-- ==== Sys2Proof/WellFormed.lean ====
section
/-! DEFINITION. The one restriction the spec puts on an instruction's fields, as a check. Every field VALUE is legal by its
width (30_encoding.md R46, R51), so there is nothing else to check. The machine runs a form that fails the check too (43_alu.md
R70), so no meaning and no statement takes it as a premise. -/

namespace Sys2Proof

/-- The program obligation of 10_state.md R16 (70_reset_and_hazards.md R118): software "must not execute `add-reg`, `sub`,
`shr`, `subn` or `shl` with `x = 15`". -/
def Instr.wellFormed : Instr → Bool
  | .addReg x _ => x != vF
  | .sub x _ => x != vF
  | .shr x _ => x != vF
  | .subn x _ => x != vF
  | .shl x _ => x != vF
  | .clearScreen => true
  | .ret => true
  | .jump _ => true
  | .call _ => true
  | .skipEqImm _ _ => true
  | .skipNeImm _ _ => true
  | .skipEqReg _ _ => true
  | .loadImm _ _ => true
  | .addImm _ _ => true
  | .loadReg _ _ => true
  | .orReg _ _ => true
  | .andReg _ _ => true
  | .xorReg _ _ => true
  | .skipNeReg _ _ => true
  | .loadIndex _ => true
  | .jumpPlusV0 _ => true
  | .rand _ _ => true
  | .draw _ _ _ => true
  | .skipKeyPressed _ => true
  | .skipKeyNotPressed _ => true
  | .loadDelay _ => true
  | .waitKey _ => true
  | .setDelay _ => true
  | .setSound _ => true
  | .addIndex _ => true
  | .fontAddr _ => true
  | .bcd _ => true
  | .storeRange _ => true
  | .loadRange _ => true

end Sys2Proof
end

