-- ==== Sys2Proof/Certificates/Slice0/Obligations.lean ====
section
/-! DEFINITION. The statements for the provers. Each is about the machine, over every state and every operand, from the numbered
rules of spec/. What an instruction leaves alone is said with `Frame`: the pieces of the state that are NOT listed are the same. A
statement about a fault speaks of `halted` and `fault` only (92_eei_decisions.md D11). -/

open Sys2Proof Sys2Proof.Machine

/-! ## Shapes the statements share -/

/-- `i` answers a next state in which `x` holds `b`, the other registers are as before, `PC` is one slot further, and nothing else
has changed. -/
def Sys2Proof.Machine.WritesOneReg (i : Instr) (x : Nibble) (b : Byte) (s : State) : Prop :=
  ∃ t, exec i s = .next t ∧ t.reg x = b ∧ (∀ y, y ≠ x → t.reg y = s.reg y) ∧ t.pc = s.pc + 2#16 ∧ Frame [.v, .pc] s t

/-- `i` answers a next state in which `x` holds `res` and `VF` the flag `f`; with `x = 15` the policy decides (43_alu.md R70). -/
def Sys2Proof.Machine.WritesRegAndFlag (i : Instr) (x : Nibble) (res f : Byte) (s : State) : Prop :=
  (x ≠ vF → ∃ t, exec i s = .next t ∧ t.reg x = res ∧ t.reg vF = f ∧ (∀ y, y ≠ x → y ≠ vF → t.reg y = s.reg y) ∧
    t.pc = s.pc + 2#16 ∧ Frame [.v, .pc] s t) ∧
  (x = vF → s.vfPolicy = .flagLast → WritesOneReg i vF f s) ∧
  (x = vF → s.vfPolicy = .resultLast → WritesOneReg i vF res s) ∧
  (x = vF → s.vfPolicy = .fault →
    HaltsWith (exec i s) { cause := .vfOperandConflict (encode i), pc := s.pc, opcode := some (encode i) })

/-- `i` answers a next state in which `PC` is two slots further where the condition holds and one slot further where not, and
nothing else has changed (42_skip.md R62). -/
def Sys2Proof.Machine.SkipsWhen (i : Instr) (condition : Prop) (s : State) : Prop :=
  ∃ t, exec i s = .next t ∧ (condition → t.pc = s.pc + 4#16) ∧ (¬ condition → t.pc = s.pc + 2#16) ∧ Frame [.pc] s t

/-- `i` halts on an access out of range: the fault is that of the first address at or above 4096 from `a` on, `a` or 4096. -/
def Sys2Proof.Machine.HaltsOutOfRange (i : Instr) (a : Nat) (s : State) : Prop :=
  HaltsWith (exec i s) { cause := .memoryOutOfRange (max a 4096), pc := s.pc, opcode := some (encode i) }

/-! ## Encoding -/

/-- Decoding the opcode of an instruction gives it back, with every operand at every value (30_encoding.md R46, R49). -/
def Obligations.DecodeOfEncode : Prop := ∀ i : Instr, decode (encode i) = .instr i

/-- An opcode that decodes to an instruction is that instruction's opcode: no bit is dropped (R46, R49). -/
def Obligations.EncodeOfDecode : Prop := ∀ (op : Word) (i : Instr), decode op = .instr i → encode i = op

/-- The decoder, written over nibbles, agrees with the opcode map's match and mask columns row by row, an opcode that no row
selects is unknown, and no opcode selects two rows (R49, R50). The patterns are the spec's own choice (D32, log 7). -/
def Obligations.DecoderAgreesWithOpcodeMap : Prop :=
  (∀ row ∈ opcodeMap, ∀ op, op &&& row.mask = row.matchBits → decode op = .instr (row.read op)) ∧
  (∀ op, (∀ row ∈ opcodeMap, op &&& row.mask ≠ row.matchBits) → decode op = .unknown op) ∧
  opcodeMap.Pairwise (fun r r' => ∀ op, ¬ (op &&& r.mask = r.matchBits ∧ op &&& r'.mask = r'.matchBits))

/-- The opcodes that select no row are those of the table of R51: `0NNN` but `00E0` and `00EE`, `5XYn` and `9XYn` with `n ≠ 0`,
`8XYn` with `n` in 8..D or F, and `EXnn`, `FXnn` with an unused `nn`. -/
def Obligations.UnknownOpcodesAreThoseListed : Prop :=
  ∀ op : Word, decode op = .unknown op ↔
    (opN1 op = 0x0#4 ∧ op ≠ 0x00E0#16 ∧ op ≠ 0x00EE#16) ∨
    (opN1 op = 0x5#4 ∧ opN op ≠ 0#4) ∨
    (opN1 op = 0x8#4 ∧ opN op ∈ [0x8#4, 0x9#4, 0xA#4, 0xB#4, 0xC#4, 0xD#4, 0xF#4]) ∨
    (opN1 op = 0x9#4 ∧ opN op ≠ 0#4) ∨
    (opN1 op = 0xE#4 ∧ opImm op ∉ [0x9E#8, 0xA1#8]) ∨
    (opN1 op = 0xF#4 ∧ opImm op ∉ [0x07#8, 0x0A#8, 0x15#8, 0x18#8, 0x1E#8, 0x29#8, 0x33#8, 0x55#8, 0x65#8])

/-- A few words of the spec's own examples decode to the instruction they stand for: one of each family (95_test_vectors.md). -/
def Obligations.ExampleWordsDecode : Prop :=
  decode 0x600A#16 = .instr (.loadImm 0 0x0A) ∧ decode 0x8014#16 = .instr (.addReg 0 1) ∧
  decode 0xD015#16 = .instr (.draw 0 1 5) ∧ decode 0x2400#16 = .instr (.call 0x400) ∧
  decode 0x3A42#16 = .instr (.skipEqImm 0xA 0x42) ∧ decode 0xFA33#16 = .instr (.bcd 0xA) ∧
  decode 0xF20A#16 = .instr (.waitKey 2) ∧ decode 0x5121#16 = .unknown 0x5121#16

/-! ## Memory and the fetch -/

/-- `MemRead(a, 1)` (20_memory.md R32): the byte at `a`, or `MemoryOutOfRange(a)` at or above 4096. -/
def Obligations.OneByteReads : Prop :=
  ∀ (s : State) (a : Nat),
    (a < 4096 → s.memRead a = .ok (s.mem.read a)) ∧ (4096 ≤ a → s.memRead a = .error (.memoryOutOfRange a))

/-- `MemWrite(a, 1, v)` (20_memory.md R33): the byte at `a` becomes `v`, every other byte and everything else is as before; at or
above 4096 nothing is written and the fault is `MemoryOutOfRange(a)`. -/
def Obligations.OneByteWrites : Prop :=
  ∀ (s : State) (a : Nat) (v : Byte),
    (a < 4096 → ∃ t, s.memWrite a v = .done t ∧ t.mem.read a = v ∧ (∀ a', a' ≠ a → t.mem.read a' = s.mem.read a') ∧
      Frame [.mem] s t) ∧
    (4096 ≤ a → s.memWrite a v = .raised (.memoryOutOfRange a) s)

/-- The opcode fetch (20_memory.md R34): high byte at `PC`, low byte at `PC + 1`; at 0xFFF the fault is that of 0x1000, and from
0x1000 on that of `PC`. The two fault clauses are the spec's own: derived from R31 and R32, the order of the two checks from D27. -/
def Obligations.FetchIsBigEndian : Prop :=
  ∀ s : State,
    (s.pc.toNat ≤ 0xFFE → ∃ op, s.fetch = .ok op ∧
      op.toNat = (s.mem.read s.pc.toNat).toNat * 256 + (s.mem.read (s.pc.toNat + 1)).toNat) ∧
    (s.pc.toNat = 0xFFF → s.fetch = .error (.memoryOutOfRange 0x1000)) ∧
    (0x1000 ≤ s.pc.toNat → s.fetch = .error (.memoryOutOfRange s.pc.toNat))

/-- Equal memories are equal data: two canonical memories that read the same at every address below 4096 are the same list. The
canonical form is the model's own (log 4). -/
def Obligations.CanonicalMemoryIsUnique : Prop :=
  ∀ m m' : Memory, m.wf = true → m'.wf = true → (∀ a, a < 4096 → m.read a = m'.read a) → m = m'

/-- A block load (70_reset_and_hazards.md R113): the bytes that fall below 4096 are written, those above are dropped, and every other
byte is as before. -/
def Obligations.BlockLoadTruncates : Prop :=
  ∀ (m : Memory) (base : Nat) (bytes : List Byte),
    (∀ k b, bytes[k]? = some b → base + k < 4096 → (m.load base bytes).read (base + k) = b) ∧
    (∀ a, (a < base ∨ base + bytes.length ≤ a ∨ 4096 ≤ a) → (m.load base bytes).read a = m.read a)

/-- Self-modifying code needs nothing (20_memory.md R43): when `store-range` writes the two bytes after itself, the next fetch
reads the registers it stored there. -/
def Obligations.StoredCodeIsFetched : Prop :=
  ∀ (x : Nibble) (j : Nat) (s : State), s.pc.toNat + 4 ≤ 4096 → s.dataAddr x.toNat < 4096 →
    s.dataAddr j = s.pc.toNat + 2 → j + 1 ≤ x.toNat →
    ∃ t, exec (.storeRange x) s = .next t ∧
      t.fetch = .ok (opOfBytes (s.reg (BitVec.ofNat 4 j)) (s.reg (BitVec.ofNat 4 (j + 1))))

/-! ## Display -/

/-- clear-screen (40_display.md R55). -/
def Obligations.ClearScreenZeroesEveryPixel : Prop :=
  ∀ s : State, ∃ t, exec .clearScreen s = .next t ∧ (∀ row col, t.pixel row col = false) ∧ t.pc = s.pc + 2#16 ∧
    Frame [.fb, .pc] s t

/-- draw (40_display.md R56) where every sprite row is in memory: each pixel is XORed with the sprite's bit on it, with toroidal
wrap, `VF` is 1 exactly when a set pixel met a set bit, and nothing else changes. Its fault is DrawHaltsOutOfRange. -/
def Obligations.DrawXorsTheSprite : Prop :=
  ∀ (x y n : Nibble) (s : State), s.dataAddr n.toNat ≤ 4096 ∨ n = 0#4 →
    ∃ t, exec (.draw x y n) s = .next t ∧
      (∀ row col, t.pixel row col = true ↔
        Xor (s.pixel row col = true) (SpriteCovers s (s.reg x).toNat (s.reg y).toNat n.toNat row col)) ∧
      (Collides s (s.reg x).toNat (s.reg y).toNat n.toNat → t.reg vF = 1#8) ∧
      (¬ Collides s (s.reg x).toNat (s.reg y).toNat n.toNat → t.reg vF = 0#8) ∧
      (∀ z, z ≠ vF → t.reg z = s.reg z) ∧ t.pc = s.pc + 2#16 ∧ Frame [.v, .fb, .pc] s t

/-- draw whose rows leave memory (R56): the fault is that of the first row `r` with `I + r ≥ 4096`. -/
def Obligations.DrawHaltsOutOfRange : Prop :=
  ∀ (x y n : Nibble) (s : State), n ≠ 0#4 → 4096 < s.dataAddr n.toNat → HaltsOutOfRange (.draw x y n) (s.dataAddr 0) s

/-- The double draw (R56, 90_conflicts.md C6): the same sprite drawn again at the same place restores every pixel, and the second
draw's flag is 1 exactly when the first turned at least one pixel from 0 to 1. -/
def Obligations.DoubleDrawRestores : Prop :=
  ∀ (x y n : Nibble) (s t u : State), s.dataAddr n.toNat ≤ 4096 ∨ n = 0#4 → exec (.draw x y n) s = .next t →
    t.reg x = s.reg x → t.reg y = s.reg y → exec (.draw x y n) t = .next u →
    u.fb = s.fb ∧ (u.reg vF = 1#8 ↔ ∃ row col, s.pixel row col = false ∧ t.pixel row col = true)

/-! ## Control transfer -/

/-- jump (41_control_flow.md R59): `PC` becomes `NNN` and nothing else changes. -/
def Obligations.JumpSetsPc : Prop :=
  ∀ (nnn : Addr12) (s : State), ∃ t, exec (.jump nnn) s = .next t ∧ t.pc.toNat = nnn.toNat ∧ Frame [.pc] s t

/-- jump-plus-v0 (R61): `PC` becomes the exact sum `V0 + NNN`, at most 0x10FE, and nothing else changes. -/
def Obligations.JumpPlusV0SetsPc : Prop :=
  ∀ (nnn : Addr12) (s : State), ∃ t, exec (.jumpPlusV0 nnn) s = .next t ∧
    t.pc.toNat = (s.reg 0#4).toNat + nnn.toNat ∧ t.pc.toNat ≤ 0x10FE ∧ Frame [.pc] s t

/-- call (R60): with fewer than 16 entries in use the address after the call is pushed and `PC` becomes `NNN`; with 16 the fault
is `StackOverflow`. -/
def Obligations.CallPushesOrOverflows : Prop :=
  ∀ (nnn : Addr12) (s : State),
    (s.sp.val < 16 → ∃ t, exec (.call nnn) s = .next t ∧ t.sp.val = s.sp.val + 1 ∧
      t.stack[s.sp.val]? = some (s.pc + 2#16) ∧ (∀ j : Nat, j ≠ s.sp.val → t.stack[j]? = s.stack[j]?) ∧
      t.pc.toNat = nnn.toNat ∧ Frame [.stack, .pc] s t) ∧
    (s.sp.val = 16 →
      HaltsWith (exec (.call nnn) s) { cause := .stackOverflow, pc := s.pc, opcode := some (encode (.call nnn)) })

/-- return (R58): with an entry in use the top one is popped and becomes `PC` as it is; with none the fault is `StackUnderflow`. -/
def Obligations.ReturnPopsOrUnderflows : Prop :=
  ∀ s : State,
    (0 < s.sp.val → ∃ t, exec .ret s = .next t ∧ t.sp.val = s.sp.val - 1 ∧ s.stack[s.sp.val - 1]? = some t.pc ∧
      t.stack = s.stack ∧ Frame [.stack, .pc] s t) ∧
    (s.sp.val = 0 → HaltsWith (exec .ret s) { cause := .stackUnderflow, pc := s.pc, opcode := some (encode .ret) })

/-- The round trip (R60): after a call and any code that leaves the stack as the call left it, a return goes to the address after
the call, and `SP` is as before the call. -/
def Obligations.ReturnUndoesCall : Prop :=
  ∀ (nnn : Addr12) (s t u : State), s.sp.val < 16 → exec (.call nnn) s = .next t → u.stack = t.stack → u.sp = t.sp →
    ∃ w, exec .ret u = .next w ∧ w.pc = s.pc + 2#16 ∧ w.sp = s.sp

/-! ## Skips -/

/-- The four register skips (42_skip.md R63 to R66). -/
def Obligations.RegisterSkips : Prop :=
  ∀ (x y : Nibble) (nn : Byte) (s : State),
    SkipsWhen (.skipEqImm x nn) (s.reg x = nn) s ∧ SkipsWhen (.skipNeImm x nn) (s.reg x ≠ nn) s ∧
    SkipsWhen (.skipEqReg x y) (s.reg x = s.reg y) s ∧ SkipsWhen (.skipNeReg x y) (s.reg x ≠ s.reg y) s

/-- The two key skips (R67, R68): the key index is the value of `Vx`, and 16 or more is `KeyIndexOutOfRange`. -/
def Obligations.KeySkips : Prop :=
  ∀ (x : Nibble) (s : State),
    ((s.reg x).toNat < 16 →
      SkipsWhen (.skipKeyPressed x) (s.keys[(s.reg x).toNat]? = some true) s ∧
      SkipsWhen (.skipKeyNotPressed x) (s.keys[(s.reg x).toNat]? = some false) s) ∧
    (16 ≤ (s.reg x).toNat →
      HaltsWith (exec (.skipKeyPressed x) s)
        { cause := .keyIndexOutOfRange (s.reg x), pc := s.pc, opcode := some (encode (.skipKeyPressed x)) } ∧
      HaltsWith (exec (.skipKeyNotPressed x) s)
        { cause := .keyIndexOutOfRange (s.reg x), pc := s.pc, opcode := some (encode (.skipKeyNotPressed x)) })

/-! ## Registers and ALU -/

/-- load-imm and load-reg (43_alu.md R71, R72). -/
def Obligations.LoadsWriteTheRegister : Prop :=
  ∀ (x y : Nibble) (nn : Byte) (s : State),
    WritesOneReg (.loadImm x nn) x nn s ∧ WritesOneReg (.loadReg x y) x (s.reg y) s

/-- add-imm (R73): wraps modulo 256 and writes no flag. -/
def Obligations.AddImmWraps : Prop :=
  ∀ (x : Nibble) (nn : Byte) (s : State), WritesOneReg (.addImm x nn) x (s.reg x + nn) s

/-- or, and, xor (R74, R75, R76): `VF` is untouched unless it is the destination. -/
def Obligations.BitwiseLogic : Prop :=
  ∀ (x y : Nibble) (s : State),
    WritesOneReg (.orReg x y) x (s.reg x ||| s.reg y) s ∧ WritesOneReg (.andReg x y) x (s.reg x &&& s.reg y) s ∧
    WritesOneReg (.xorReg x y) x (s.reg x ^^^ s.reg y) s

/-- add-reg (R77): the sum modulo 256, and `VF` 1 iff it exceeds 255. -/
def Obligations.AddRegSetsCarry : Prop :=
  ∀ (x y : Nibble) (s : State),
    WritesRegAndFlag (.addReg x y) x (s.reg x + s.reg y) (if (s.reg x).toNat + (s.reg y).toNat > 255 then 1#8 else 0#8) s

/-- sub (R78): the difference modulo 256, and `VF` 1 iff `Vx ≥ Vy`. -/
def Obligations.SubSetsNoBorrow : Prop :=
  ∀ (x y : Nibble) (s : State),
    WritesRegAndFlag (.sub x y) x (s.reg x - s.reg y) (if (s.reg x).toNat ≥ (s.reg y).toNat then 1#8 else 0#8) s

/-- subn (R79): `Vy - Vx` modulo 256, and `VF` 1 iff `Vy > Vx`, strictly. -/
def Obligations.SubnSetsStrictFlag : Prop :=
  ∀ (x y : Nibble) (s : State),
    WritesRegAndFlag (.subn x y) x (s.reg y - s.reg x) (if (s.reg y).toNat > (s.reg x).toNat then 1#8 else 0#8) s

/-- shr (R80): half of `Vx`, and `VF` its bit 0; `Vy` is not read. -/
def Obligations.ShrShiftsRight : Prop :=
  ∀ (x y : Nibble) (s : State),
    WritesRegAndFlag (.shr x y) x (BitVec.ofNat 8 ((s.reg x).toNat / 2)) (BitVec.ofNat 8 ((s.reg x).toNat % 2)) s

/-- shl (R81): twice `Vx` modulo 256, and `VF` its bit 7; `Vy` is not read. -/
def Obligations.ShlShiftsLeft : Prop :=
  ∀ (x y : Nibble) (s : State),
    WritesRegAndFlag (.shl x y) x (BitVec.ofNat 8 (2 * (s.reg x).toNat)) (BitVec.ofNat 8 ((s.reg x).toNat / 128)) s

/-- rand: `Vx` is the fresh free byte masked with `NN`, so no bit outside `NN` is set, and the next execution draws another byte.
The draw `Config.rand` and the count that selects it are the model's choice (log 2). -/
def Obligations.RandMasksAFreshByte : Prop :=
  ∀ (x : Nibble) (nn : Byte) (s : State), ∃ t, exec (.rand x nn) s = .next t ∧
    t.reg x = Config.rand s.randDraws &&& nn ∧ t.reg x &&& ~~~nn = 0#8 ∧ (∀ y, y ≠ x → t.reg y = s.reg y) ∧
    t.randDraws = s.randDraws + 1 ∧ t.pc = s.pc + 2#16 ∧ Frame [.v, .pc, .rand] s t

/-! ## Index register and memory -/

/-- load-index, add-index and font-addr (44_index_memory.md R84, R85, R86): the new `I`, and nothing else changes, `VF` included. -/
def Obligations.IndexWrites : Prop :=
  ∀ (x : Nibble) (nnn : Addr12) (s : State),
    (∃ t, exec (.loadIndex nnn) s = .next t ∧ t.i.toNat = nnn.toNat ∧ t.pc = s.pc + 2#16 ∧ Frame [.i, .pc] s t) ∧
    (∃ t, exec (.addIndex x) s = .next t ∧ t.i.toNat = (s.i.toNat + (s.reg x).toNat) % 65536 ∧ t.pc = s.pc + 2#16 ∧
      Frame [.i, .pc] s t) ∧
    (∃ t, exec (.fontAddr x) s = .next t ∧ t.i.toNat = (s.reg x).toNat * 5 ∧ t.pc = s.pc + 2#16 ∧ Frame [.i, .pc] s t)

/-- bcd (R87): the hundreds, tens and units of `Vx` at `I`, `I + 1`, `I + 2`, nothing else changed; out of range, the fault is that
of the first such address. -/
def Obligations.BcdWritesDigits : Prop :=
  ∀ (x : Nibble) (s : State),
    (s.dataAddr 2 < 4096 → ∃ t h d u, exec (.bcd x) s = .next t ∧
      t.mem.read (s.dataAddr 0) = BitVec.ofNat 8 h ∧ t.mem.read (s.dataAddr 1) = BitVec.ofNat 8 d ∧
      t.mem.read (s.dataAddr 2) = BitVec.ofNat 8 u ∧ h < 10 ∧ d < 10 ∧ u < 10 ∧
      (s.reg x).toNat = 100 * h + 10 * d + u ∧
      (∀ a, a < s.dataAddr 0 ∨ s.dataAddr 2 < a → t.mem.read a = s.mem.read a) ∧
      t.pc = s.pc + 2#16 ∧ Frame [.mem, .pc] s t) ∧
    (4096 ≤ s.dataAddr 2 → HaltsOutOfRange (.bcd x) (s.dataAddr 0) s)

/-- store-range (R88): `V0`..`Vx` at `I`..`I + x`, nothing else changed, `I` included; out of range, the fault is that of the first
such address. -/
def Obligations.StoreRangeStores : Prop :=
  ∀ (x : Nibble) (s : State),
    (s.dataAddr x.toNat < 4096 → ∃ t, exec (.storeRange x) s = .next t ∧
      (∀ k : Nibble, k.toNat ≤ x.toNat → t.mem.read (s.dataAddr k.toNat) = s.reg k) ∧
      (∀ a, a < s.dataAddr 0 ∨ s.dataAddr x.toNat < a → t.mem.read a = s.mem.read a) ∧
      t.pc = s.pc + 2#16 ∧ Frame [.mem, .pc] s t) ∧
    (4096 ≤ s.dataAddr x.toNat → HaltsOutOfRange (.storeRange x) (s.dataAddr 0) s)

/-- load-range (R89): `I`..`I + x` in `V0`..`Vx`, nothing else changed, `I` included; out of range, the fault is that of the first
such address. -/
def Obligations.LoadRangeLoads : Prop :=
  ∀ (x : Nibble) (s : State),
    (s.dataAddr x.toNat < 4096 → ∃ t, exec (.loadRange x) s = .next t ∧
      (∀ k : Nibble, k.toNat ≤ x.toNat → t.reg k = s.mem.read (s.dataAddr k.toNat)) ∧
      (∀ k : Nibble, x.toNat < k.toNat → t.reg k = s.reg k) ∧
      t.pc = s.pc + 2#16 ∧ Frame [.v, .pc] s t) ∧
    (4096 ≤ s.dataAddr x.toNat → HaltsOutOfRange (.loadRange x) (s.dataAddr 0) s)

/-- What `store-range` saved, `load-range` brings back: after any code that leaves `I` and memory alone, the registers `V0`..`Vx`
are those stored (R88, R89). -/
def Obligations.LoadRangeUndoesStoreRange : Prop :=
  ∀ (x : Nibble) (s t u : State), s.dataAddr x.toNat < 4096 → exec (.storeRange x) s = .next t →
    u.i = t.i → (∀ a, u.mem.read a = t.mem.read a) →
    ∃ w, exec (.loadRange x) u = .next w ∧ ∀ k : Nibble, k.toNat ≤ x.toNat → w.reg k = s.reg k

/-! ## Timers and keys -/

/-- load-delay, set-delay and set-sound (45_timers_keys.md R90, R92, R93). -/
def Obligations.TimerTransfers : Prop :=
  ∀ (x : Nibble) (s : State),
    WritesOneReg (.loadDelay x) x s.delay s ∧
    (∃ t, exec (.setDelay x) s = .next t ∧ t.delay = s.reg x ∧ t.pc = s.pc + 2#16 ∧ Frame [.delay, .pc] s t) ∧
    (∃ t, exec (.setSound x) s = .next t ∧ t.sound = s.reg x ∧ t.pc = s.pc + 2#16 ∧ Frame [.sound, .pc] s t)

/-- wait-key (R91): the lowest pressed key goes to `Vx`; with none pressed `PC` stays and nothing changes. -/
def Obligations.WaitKeyTakesLowestKey : Prop :=
  ∀ (x : Nibble) (s : State),
    (∀ k : Fin 16, s.keys[k] = true → (∀ j : Fin 16, j < k → s.keys[j] = false) →
      WritesOneReg (.waitKey x) x (BitVec.ofNat 8 k.val) s) ∧
    ((∀ k : Fin 16, s.keys[k] = false) → ∃ t, exec (.waitKey x) s = .next t ∧ Frame [] s t)

/-- The timers' decrement (60_exceptions.md R102): by exactly 1 when non-zero, floored at zero, each on its own value, and nothing
else changes. -/
def Obligations.TimersFloorAtZero : Prop :=
  ∀ s : State,
    (0 < s.delay.toNat → s.timersDecrement.delay.toNat + 1 = s.delay.toNat) ∧
    (s.delay.toNat = 0 → s.timersDecrement.delay.toNat = 0) ∧
    (0 < s.sound.toNat → s.timersDecrement.sound.toNat + 1 = s.sound.toNat) ∧
    (s.sound.toNat = 0 → s.timersDecrement.sound.toNat = 0) ∧ Frame [.delay, .sound] s s.timersDecrement

/-! ## The tick -/

/-- A step runs the decoded instruction (30_encoding.md R52, 60_exceptions.md R101): with a tick that runs a cycle and the two bytes at
`PC` decoding to `i`, the step is `exec i` on the state with the tick taken and its keys latched, followed by the timers' decrement
and the snapshot offered to the renderer, unless the instruction faulted. The queue of ticks is the model's (log 1). -/
def Obligations.StepRunsDecodedInstruction : Prop :=
  ∀ (s : State) (i : Instr), s.halted = false → s.nextTick.run = true → s.pc.toNat ≤ 0xFFE →
    decode (opOfBytes (s.mem.read s.pc.toNat) (s.mem.read (s.pc.toNat + 1))) = .instr i →
    ∃ t, exec i (s.popTick.latchKeys s.nextTick.snapshot) = .next t ∧
      step s = .next (if t.halted then t else t.timersDecrement.offerFrame)

/-- A word of the table placed by `withFetchWord` is what the very next step of a machine that has not halted runs, on a state whose
memory differs at the two bytes at `PC` only. The way a word is placed is the model's (log 8). -/
def Obligations.PlacedWordRunsNext : Prop :=
  ∀ (s : State) (w : Nat) (i : Instr), s.halted = false → s.pc.toNat ≤ 0xFFE → w < 65536 → decodeTableWord 16 w = some i →
    ∃ p t, Frame [.mem] s p ∧ (∀ a, a ≠ s.pc.toNat → a ≠ s.pc.toNat + 1 → p.mem.read a = s.mem.read a) ∧
      exec i p = .next t ∧ step (s.withFetchWord 16 w) = .next (if t.halted then t else t.timersDecrement.offerFrame)

/-- An unknown opcode is a one-slot no-op (R50): the step changes nothing but `PC`, and what every tick changes: the keys, the
timers, the snapshot offered and the host's ticks. -/
def Obligations.UnknownOpcodeIsNoOp : Prop :=
  ∀ (s : State) (op : Word), s.halted = false → s.nextTick.run = true → s.fetch = .ok op → decode op = .unknown op →
    ∃ t, step s = .next t ∧ t.pc = s.pc + 2#16 ∧ t.keys = s.nextTick.snapshot ∧ t.delay = decrement s.delay ∧
      t.sound = decrement s.sound ∧ t.render = some s.fb ∧ Frame [.pc, .keys, .delay, .sound, .ticks, .render] s t

/-- A fetch that fails halts the machine (R34, R95, R96): the record holds the first failing address and no opcode. -/
def Obligations.FetchFaultHalts : Prop :=
  ∀ s : State, s.halted = false → s.nextTick.run = true → 0xFFF ≤ s.pc.toNat →
    HaltsWith (step s) { cause := .memoryOutOfRange (max s.pc.toNat 4096), pc := s.pc, opcode := none }

/-- A tick without a cycle (R101): the keys are latched, the timers are decremented, the framebuffer is offered to the renderer, and
nothing else changes but the host's ticks. -/
def Obligations.TickWithoutCycle : Prop :=
  ∀ s : State, s.halted = false → s.nextTick.run = false →
    ∃ t, step s = .next t ∧ t.keys = s.nextTick.snapshot ∧ t.delay = decrement s.delay ∧ t.sound = decrement s.sound ∧
      t.render = some s.fb ∧ Frame [.keys, .delay, .sound, .ticks, .render] s t

/-- A machine that has halted has no step (R95, R101), and one that has not always has a next state. -/
def Obligations.OnlyAHaltedMachineStops : Prop :=
  ∀ s : State, (s.halted = true → step s = .fault (.machineHalted s.fault)) ∧ (s.halted = false → ∃ t, step s = .next t)

/-- The delay timer counts down (R103): a tick runs `set-delay` with `n > 0`, and none of the `len` ticks after it runs `set-delay` or
faults. Then the delay timer that tick `j` after it reads is `n - j`, and 0 from tick `n` on. -/
def Obligations.DelayCountsDown : Prop :=
  ∀ (s : State) (op : Word) (x : Nibble) (run : Nat → State) (len : Nat), s.halted = false → s.nextTick.run = true →
    s.fetch = .ok op → decode op = .instr (.setDelay x) → 0 < (s.reg x).toNat → step s = .next (run 0) →
    (∀ k, k < len → step (run k) = .next (run (k + 1)) ∧ (run (k + 1)).halted = false ∧
      ((run k).nextTick.run = true → ∀ op' x', (run k).fetch = .ok op' → decode op' ≠ .instr (.setDelay x'))) →
    ∀ j, 1 ≤ j → j ≤ len + 1 → (run (j - 1)).delay.toNat = (s.reg x).toNat - j

/-! ## Reset -/

/-- The state after reset with any font and cartridge (10_state.md R28, 70_reset_and_hazards.md R112): memory holds the cartridge from
0x200, else the font from 0, else zero; `PC` is 0x200, everything else is zero, and the machine is not halted. -/
def Obligations.BootLeavesResetValues : Prop :=
  ∀ font cartridge : List Byte,
    (∀ a, a < 4096 → (State.boot font cartridge).mem.read a =
      if 0x200 ≤ a ∧ a - 0x200 < cartridge.length then cartridge.getD (a - 0x200) 0#8 else font.getD a 0#8) ∧
    (State.boot font cartridge).pc = 0x200#16 ∧ (∀ x, (State.boot font cartridge).reg x = 0#8) ∧
    (State.boot font cartridge).i = 0#16 ∧ (State.boot font cartridge).sp.val = 0 ∧
    (∀ j : Fin 16, (State.boot font cartridge).stack[j] = 0#16) ∧ (State.boot font cartridge).delay = 0#8 ∧
    (State.boot font cartridge).sound = 0#8 ∧ (∀ k : Fin 16, (State.boot font cartridge).keys[k] = false) ∧
    (∀ row col, (State.boot font cartridge).pixel row col = false) ∧
    (State.boot font cartridge).halted = false ∧ (State.boot font cartridge).fault = none

/-- Reset with the default font is the cartridge loaded into the reset state: the same data, in the canonical form (R112, R115). -/
def Obligations.DefaultFontBootLoadsIntoReset : Prop :=
  ∀ cartridge : List Byte, State.boot Config.font cartridge = State.reset.setMem (State.reset.mem.load 0x200 cartridge)

/-- The reset state meets the invariant. -/
def Obligations.ResetMeetsInvariant : Prop := State.reset.Inv

/-- The state after reset with any font and cartridge meets the invariant (R112, R113). -/
def Obligations.BootMeetsInvariant : Prop := ∀ font cartridge : List Byte, (State.boot font cartridge).Inv

/-! ## The whole machine -/

/-- Every step keeps the invariant: memory stays canonical, `PC` stays at most 0x10FE and every stack entry at most 0x1000 (10_state.md
R20), and the halt and its record stay together (R26). -/
def Obligations.StepKeepsInvariant : Prop := ∀ s t : State, s.Inv → step s = .next t → t.Inv

/-- Every instruction answers a next state from every state: there is no refusal and no other stop (60_exceptions.md R94, R95, R99). -/
def Obligations.EveryInstructionAnswersNext : Prop := ∀ (i : Instr) (s : State), ∃ t, exec i s = .next t

/-- The faults of the instructions (60_exceptions.md R94, R96): an instruction that halts the machine records its own address and opcode,
and the cause is one R94 lets that instruction raise, in the case R94 gives; `RegisterIndexOutOfRange` is none of them. -/
def Obligations.FaultsAreThoseListed : Prop :=
  ∀ (i : Instr) (s t : State), s.halted = false → exec i s = .next t → t.halted = true →
    ∃ cause, t.fault = some { cause := cause, pc := s.pc, opcode := some (encode i) } ∧
      match cause with
      | .memoryOutOfRange a => 4096 ≤ a ∧
          ((∃ x y n, i = .draw x y n) ∨ (∃ x, i = .bcd x) ∨ (∃ x, i = .storeRange x) ∨ (∃ x, i = .loadRange x))
      | .stackOverflow => s.sp.val = 16 ∧ ∃ nnn, i = .call nnn
      | .stackUnderflow => s.sp.val = 0 ∧ i = .ret
      | .registerIndexOutOfRange _ => False
      | .keyIndexOutOfRange v => 16 ≤ v.toNat ∧ ∃ x, s.reg x = v ∧ (i = .skipKeyPressed x ∨ i = .skipKeyNotPressed x)
      | .vfOperandConflict op => s.vfPolicy = .fault ∧ op = encode i ∧ i.wellFormed = false

/-- The program counter (10_state.md R19, R53): an instruction that does not fault moves `PC` forward by one slot, but a skip may move it
by two, `wait-key` may leave it, and `return`, `jump`, `call` and `jump-plus-v0` set it. -/
def Obligations.PcMovesBySlots : Prop :=
  ∀ (i : Instr) (s t : State), s.halted = false → exec i s = .next t → t.halted = false →
    t.pc = s.pc + 2#16 ∨
    (t.pc = s.pc + 4#16 ∧ ((∃ x nn, i = .skipEqImm x nn ∨ i = .skipNeImm x nn) ∨
      (∃ x y, i = .skipEqReg x y ∨ i = .skipNeReg x y) ∨ (∃ x, i = .skipKeyPressed x ∨ i = .skipKeyNotPressed x))) ∨
    (t.pc = s.pc ∧ ∃ x, i = .waitKey x) ∨
    (i = .ret ∨ ∃ nnn, i = .jump nnn ∨ i = .call nnn ∨ i = .jumpPlusV0 nnn)

/-- Who writes `I`, the stack, the timers, the framebuffer and memory (10_state.md R17, R21, R23, R25; 20_memory.md R30): only the
instructions named there, and no instruction writes the keys, the policy, the host's ticks or the snapshot offered to the renderer (R24,
R104). It speaks of an instruction that does not fault (D11). The fields of the policy, the host's ticks and the snapshot are the model's
(logs 3, 1, 26). -/
def Obligations.OnlyNamedInstructionsWrite : Prop :=
  ∀ (i : Instr) (s t : State), exec i s = .next t → t.halted = false →
    ((∀ nnn x, i ≠ .loadIndex nnn ∧ i ≠ .addIndex x ∧ i ≠ .fontAddr x) → Part.i.same s t) ∧
    ((∀ nnn, i ≠ .ret ∧ i ≠ .call nnn) → Part.stack.same s t) ∧
    ((∀ x, i ≠ .setDelay x) → Part.delay.same s t) ∧
    ((∀ x, i ≠ .setSound x) → Part.sound.same s t) ∧
    ((∀ x y n, i ≠ .clearScreen ∧ i ≠ .draw x y n) → Part.fb.same s t) ∧
    ((∀ x, i ≠ .bcd x ∧ i ≠ .storeRange x) → Part.mem.same s t) ∧
    Part.keys.same s t ∧ Part.policy.same s t ∧ Part.ticks.same s t ∧ Part.render.same s t

/-- Who writes `VF` (10_state.md R15): an instruction that is none of the six flag writers and does not name `VF` as its destination
leaves it, and a flag writer leaves 0 or 1 in it (of the five ALU instructions, the forms R16 allows). -/
def Obligations.OnlyNamedInstructionsWriteVF : Prop :=
  ∀ (i : Instr) (s t : State), exec i s = .next t → t.halted = false →
    (i.wellFormed = true → (∃ x y, i = .addReg x y ∨ i = .sub x y ∨ i = .subn x y ∨ i = .shr x y ∨ i = .shl x y) ∨ (∃ x y n, i = .draw x y n) →
      t.reg vF = 0#8 ∨ t.reg vF = 1#8) ∧
    (t.reg vF = s.reg vF ∨
      (∃ x y, i = .addReg x y ∨ i = .sub x y ∨ i = .subn x y ∨ i = .shr x y ∨ i = .shl x y) ∨ (∃ x y n, i = .draw x y n) ∨
      (∃ nn, i = .loadImm vF nn ∨ i = .addImm vF nn ∨ i = .rand vF nn) ∨
      (∃ y, i = .loadReg vF y ∨ i = .orReg vF y ∨ i = .andReg vF y ∨ i = .xorReg vF y) ∨
      i = .loadDelay vF ∨ i = .waitKey vF ∨ i = .loadRange vF)

/-- The keys are the host's (10_state.md R24, 60_exceptions.md R105): after a step that does not fault they are the snapshot of that tick.
The policy is as before: that the parameter VF_OPERAND_POLICY (00_scope.md R7, 43_alu.md R70) is a field which no step writes is the
model's choice (log 3), as the queue of ticks is (log 1). -/
def Obligations.StepLatchesTheSnapshot : Prop :=
  ∀ s t : State, step s = .next t → t.halted = false → t.keys = s.nextTick.snapshot ∧ t.vfPolicy = s.vfPolicy

/-- A run stops at the halt (60_exceptions.md R95, R111): after ticks that have left the machine halted a further tick, and with it every
longer run, answers the stop with the diagnostic of the halt; and a run that answers a next state had not halted before its last tick,
so a halted machine never comes back. -/
def Obligations.RunStopsAtTheHalt : Prop :=
  ∀ (ts : List HostTick) (s t : State), runTicks ts s = .next t →
    (t.halted = true → ∀ (next : HostTick) (later : List HostTick),
      runTicks (ts ++ next :: later) s = .fault (.machineHalted t.fault)) ∧
    (∀ (before after : List HostTick), ts = before ++ after → after ≠ [] →
      ∃ u, EndsAt before s u)

/-- The renderer's snapshot (60_exceptions.md R101, R104): a step that does not fault offers the framebuffer as its cycle left it. The field
that holds the snapshot is the model's (log 26). -/
def Obligations.StepOffersTheFrame : Prop :=
  ∀ s t : State, step s = .next t → t.halted = false → t.render = some t.fb

/-- The timers over one step (60_exceptions.md R101, R102; 10_state.md R23): after a step that does not fault each timer is decremented
once, from its value before the step, or from `Vx` where the step ran `set-delay` or `set-sound`. The queue of ticks is the model's
(log 1). -/
def Obligations.StepDecrementsTheTimers : Prop :=
  ∀ s t : State, step s = .next t → t.halted = false →
    ((s.nextTick.run = true → ∀ op x, s.fetch = .ok op → decode op ≠ .instr (.setDelay x)) → t.delay = decrement s.delay) ∧
    ((s.nextTick.run = true → ∀ op x, s.fetch = .ok op → decode op ≠ .instr (.setSound x)) → t.sound = decrement s.sound) ∧
    (∀ op x, s.nextTick.run = true → s.fetch = .ok op →
      (decode op = .instr (.setDelay x) → t.delay = decrement (s.reg x)) ∧
      (decode op = .instr (.setSound x) → t.sound = decrement (s.reg x)))
end

