-- ==== Sys2Proof/Laws/Decode.lean ====
section
/-! SUPPORT. The laws of the nibbles of an opcode: taking one apart, putting one together, and its two bytes. -/

namespace Sys2Proof

theorem toNat_append_nibble {k : Nat} (x : BitVec k) (y : Nibble) : (x ++ y).toNat = x.toNat * 16 + y.toNat := by
  rw [BitVec.toNat_append, Nat.shiftLeft_eq, Nat.mul_comm, Nat.two_pow_add_eq_or_of_lt y.isLt x.toNat |>.symm]

theorem ofNibbles_toNat (a b c d : Nibble) :
    (ofNibbles a b c d).toNat = a.toNat * 4096 + b.toNat * 256 + c.toNat * 16 + d.toNat := by
  show (a ++ b ++ c ++ d).toNat = _
  simp only [toNat_append_nibble]
  omega

theorem opN1_toNat (op : Word) : (opN1 op).toNat = op.toNat / 4096 := by
  have := op.isLt
  simp only [opN1, BitVec.extractLsb'_toNat, Nat.shiftRight_eq_div_pow]
  omega

theorem opX_toNat (op : Word) : (opX op).toNat = op.toNat / 256 % 16 := by
  simp only [opX, BitVec.extractLsb'_toNat, Nat.shiftRight_eq_div_pow]

theorem opY_toNat (op : Word) : (opY op).toNat = op.toNat / 16 % 16 := by
  simp only [opY, BitVec.extractLsb'_toNat, Nat.shiftRight_eq_div_pow]

theorem opN_toNat (op : Word) : (opN op).toNat = op.toNat % 16 := by
  simp [opN, BitVec.extractLsb'_toNat]

@[simp] theorem opN1_ofNibbles (a b c d : Nibble) : opN1 (ofNibbles a b c d) = a := by
  apply BitVec.eq_of_toNat_eq
  rw [opN1_toNat, ofNibbles_toNat]
  omega

@[simp] theorem opX_ofNibbles (a b c d : Nibble) : opX (ofNibbles a b c d) = b := by
  apply BitVec.eq_of_toNat_eq
  rw [opX_toNat, ofNibbles_toNat]
  omega

@[simp] theorem opY_ofNibbles (a b c d : Nibble) : opY (ofNibbles a b c d) = c := by
  apply BitVec.eq_of_toNat_eq
  rw [opY_toNat, ofNibbles_toNat]
  omega

@[simp] theorem opN_ofNibbles (a b c d : Nibble) : opN (ofNibbles a b c d) = d := by
  apply BitVec.eq_of_toNat_eq
  rw [opN_toNat, ofNibbles_toNat]
  omega

@[simp] theorem opImm_ofNibbles (a b c d : Nibble) : opImm (ofNibbles a b c d) = immOf c d := by
  simp [opImm]

@[simp] theorem opAddr_ofNibbles (a b c d : Nibble) : opAddr (ofNibbles a b c d) = addrOf b c d := by
  simp [opAddr]

/-- An opcode is made of its four nibbles (30_encoding.md R46). -/
theorem ofNibbles_fields (op : Word) : ofNibbles (opN1 op) (opX op) (opY op) (opN op) = op := by
  apply BitVec.eq_of_toNat_eq
  rw [ofNibbles_toNat, opN1_toNat, opX_toNat, opY_toNat, opN_toNat]
  omega

@[simp] theorem immOf_parts (nn : Byte) : immOf (immHi nn) (immLo nn) = nn := by
  apply BitVec.eq_of_toNat_eq
  have := nn.isLt
  show (immHi nn ++ immLo nn).toNat = _
  simp only [toNat_append_nibble, immHi, immLo, BitVec.extractLsb'_toNat, Nat.shiftRight_eq_div_pow]
  omega

@[simp] theorem immHi_immOf (c d : Nibble) : immHi (immOf c d) = c := by
  apply BitVec.eq_of_toNat_eq
  have : (immOf c d).toNat = c.toNat * 16 + d.toNat := toNat_append_nibble c d
  simp only [immHi, BitVec.extractLsb'_toNat, Nat.shiftRight_eq_div_pow, this]
  omega

@[simp] theorem immLo_immOf (c d : Nibble) : immLo (immOf c d) = d := by
  apply BitVec.eq_of_toNat_eq
  have : (immOf c d).toNat = c.toNat * 16 + d.toNat := toNat_append_nibble c d
  simp only [immLo, BitVec.extractLsb'_toNat, Nat.shiftRight_eq_div_pow, this]
  omega

@[simp] theorem addrOf_parts (nnn : Addr12) : addrOf (addrHi nnn) (addrMid nnn) (addrLo nnn) = nnn := by
  apply BitVec.eq_of_toNat_eq
  have := nnn.isLt
  show (addrHi nnn ++ addrMid nnn ++ addrLo nnn).toNat = _
  simp only [toNat_append_nibble, addrHi, addrMid, addrLo, BitVec.extractLsb'_toNat, Nat.shiftRight_eq_div_pow]
  omega

theorem addrOf_toNat (b c d : Nibble) : (addrOf b c d).toNat = b.toNat * 256 + c.toNat * 16 + d.toNat := by
  show (b ++ c ++ d).toNat = _
  simp only [toNat_append_nibble]
  omega

@[simp] theorem addrHi_addrOf (b c d : Nibble) : addrHi (addrOf b c d) = b := by
  apply BitVec.eq_of_toNat_eq
  simp only [addrHi, BitVec.extractLsb'_toNat, Nat.shiftRight_eq_div_pow, addrOf_toNat]
  omega

@[simp] theorem addrMid_addrOf (b c d : Nibble) : addrMid (addrOf b c d) = c := by
  apply BitVec.eq_of_toNat_eq
  simp only [addrMid, BitVec.extractLsb'_toNat, Nat.shiftRight_eq_div_pow, addrOf_toNat]
  omega

@[simp] theorem addrLo_addrOf (b c d : Nibble) : addrLo (addrOf b c d) = d := by
  apply BitVec.eq_of_toNat_eq
  simp only [addrLo, BitVec.extractLsb'_toNat, Nat.shiftRight_eq_div_pow, addrOf_toNat]
  omega

theorem immOf_eq_iff (c d : Nibble) (nn : Byte) : immOf c d = nn ↔ c = immHi nn ∧ d = immLo nn := by
  constructor
  · rintro rfl; simp
  · rintro ⟨rfl, rfl⟩; simp

/-- The two bytes of an opcode, put together again, are the opcode (20_memory.md R34, R35). -/
@[simp] theorem opOfBytes_parts (op : Word) : opOfBytes (opHi op) (opLo op) = op := by
  apply BitVec.eq_of_toNat_eq
  have h : (opOfBytes (opHi op) (opLo op)).toNat = (opHi op ++ opLo op).toNat := rfl
  have := op.isLt
  rw [h, BitVec.toNat_append, Nat.shiftLeft_eq, Nat.mul_comm, Nat.two_pow_add_eq_or_of_lt (opLo op).isLt _ |>.symm]
  simp only [opHi, opLo, BitVec.extractLsb'_toNat, Nat.shiftRight_eq_div_pow]
  omega

/-- The value of a fetched word: `hi * 256 + lo` (20_memory.md R34). -/
theorem opOfBytes_toNat (hi lo : Byte) : (opOfBytes hi lo).toNat = hi.toNat * 256 + lo.toNat := by
  have h : (opOfBytes hi lo).toNat = (hi ++ lo).toNat := rfl
  rw [h, BitVec.toNat_append, Nat.shiftLeft_eq, Nat.mul_comm, Nat.two_pow_add_eq_or_of_lt lo.isLt _ |>.symm]

/-- Masking acts nibble by nibble (30_encoding.md R49). -/
theorem ofNibbles_and (a b c d a' b' c' d' : Nibble) :
    ofNibbles a b c d &&& ofNibbles a' b' c' d' = ofNibbles (a &&& a') (b &&& b') (c &&& c') (d &&& d') := by
  show (a ++ b ++ c ++ d) &&& (a' ++ b' ++ c' ++ d') = (a &&& a') ++ (b &&& b') ++ (c &&& c') ++ (d &&& d')
  simp only [BitVec.and_append]

theorem ofNibbles_inj {a b c d a' b' c' d' : Nibble} :
    ofNibbles a b c d = ofNibbles a' b' c' d' ↔ a = a' ∧ b = b' ∧ c = c' ∧ d = d' := by
  constructor
  · intro h
    refine ⟨?_, ?_, ?_, ?_⟩
    · simpa using congrArg opN1 h
    · simpa using congrArg opX h
    · simpa using congrArg opY h
    · simpa using congrArg opN h
  · rintro ⟨rfl, rfl, rfl, rfl⟩; rfl

/-- Decoding an opcode given by its nibbles. -/
theorem decode_ofNibbles (a b c d : Nibble) :
    decode (ofNibbles a b c d) =
      match decodeNibbles a b c d with
      | some i => .instr i
      | none => .unknown (ofNibbles a b c d) := by
  cases h : decodeNibbles a b c d <;> simp only [decode, opN1_ofNibbles, opX_ofNibbles, opY_ofNibbles, opN_ofNibbles, h]

end Sys2Proof
end

