-- ==== Sys2Proof/Laws/Memory.lean ====
section
/-! SUPPORT. The laws of memory: a read after a write, and the canonical form every operation keeps. -/

namespace Sys2Proof.Machine

@[simp] theorem Memory.read_erase_same (m : Memory) (a : Nat) : (m.erase a).read a = Memory.unlisted a := by
  induction m with
  | nil => rfl
  | cons c m ih =>
    obtain ⟨k, b⟩ := c
    by_cases h : k = a <;> simp [Memory.erase, Memory.read, h, ih]

theorem Memory.read_erase_of_ne (m : Memory) {a a' : Nat} (h : a' ≠ a) : (m.erase a).read a' = m.read a' := by
  induction m with
  | nil => rfl
  | cons c m ih =>
    obtain ⟨k, b⟩ := c
    by_cases hk : k = a
    · subst hk
      simp [Memory.erase, Memory.read, ih, Ne.symm h]
    · simp [Memory.erase, Memory.read, hk, ih]

theorem Memory.mem_erase_ne {m : Memory} {a : Nat} {c : Host.Cell} (h : c ∈ m.erase a) : c.1 ≠ a := by
  induction m with
  | nil => simp [Memory.erase] at h
  | cons c' m ih =>
    obtain ⟨k, b⟩ := c'
    by_cases hk : k = a
    · exact ih (by simpa [Memory.erase, hk] using h)
    · simp only [Memory.erase, hk, if_false, List.mem_cons] at h
      rcases h with rfl | h
      · exact hk
      · exact ih h

theorem Memory.mem_of_mem_erase {m : Memory} {a : Nat} {c : Host.Cell} (h : c ∈ m.erase a) : c ∈ m := by
  induction m with
  | nil => simp [Memory.erase] at h
  | cons c' m ih =>
    obtain ⟨k, b⟩ := c'
    by_cases hk : k = a
    · exact List.mem_cons_of_mem _ (ih (by simpa [Memory.erase, hk] using h))
    · simp only [Memory.erase, hk, if_false, List.mem_cons] at h
      rcases h with rfl | h
      · exact List.mem_cons_self
      · exact List.mem_cons_of_mem _ (ih h)

@[simp] theorem Memory.read_place_same (m : Memory) (a : Nat) (v : Byte) (h : ∀ c ∈ m, c.1 ≠ a) :
    (m.place a v).read a = v := by
  induction m with
  | nil => simp [Memory.place, Memory.read]
  | cons c m ih =>
    obtain ⟨k, b⟩ := c
    have hk : k ≠ a := h (k, b) List.mem_cons_self
    by_cases hlt : a < k
    · simp [Memory.place, Memory.read, hlt]
    · simpa [Memory.place, Memory.read, hlt, hk] using ih fun c hc => h c (List.mem_cons_of_mem _ hc)

theorem Memory.read_place_of_ne (m : Memory) {a a' : Nat} (v : Byte) (h : a' ≠ a) :
    (m.place a v).read a' = m.read a' := by
  induction m with
  | nil => simp [Memory.place, Memory.read, Ne.symm h]
  | cons c m ih =>
    obtain ⟨k, b⟩ := c
    by_cases hlt : a < k
    · simp [Memory.place, Memory.read, hlt, Ne.symm h]
    · simp [Memory.place, Memory.read, hlt, ih]

/-- A read after a write, at every address and of every memory (20_memory.md R32, R33, R40). -/
theorem Memory.read_write (m : Memory) (a a' : Nat) (v : Byte) :
    (m.write a v).read a' = if a' = a then v else m.read a' := by
  unfold Memory.write
  by_cases ha : a' = a
  · subst ha
    split
    · simp_all
    · rw [Memory.read_place_same _ _ _ fun c hc => Memory.mem_erase_ne hc]; simp
  · split
    · rw [Memory.read_erase_of_ne _ ha]
    · rw [Memory.read_place_of_ne _ v ha, Memory.read_erase_of_ne _ ha]

/-- What the canonical form says, cell by cell. -/
theorem Memory.wf_cons (k : Nat) (b : Byte) (m : Memory) :
    Memory.wf ((k, b) :: m) = true ↔
      k < 4096 ∧ b ≠ Memory.unlisted k ∧ (∀ c ∈ m, k < c.1) ∧ Memory.wf m = true := by
  simp [Memory.wf, and_assoc]

theorem Memory.wf_erase {m : Memory} (h : m.wf = true) (a : Nat) : (m.erase a).wf = true := by
  induction m with
  | nil => rfl
  | cons c m ih =>
    obtain ⟨k, b⟩ := c
    obtain ⟨hk, hb, hall, hm⟩ := (Memory.wf_cons k b m).1 h
    by_cases hka : k = a
    · simpa [Memory.erase, hka] using ih hm
    · rw [Memory.erase, if_neg hka]
      exact (Memory.wf_cons ..).2 ⟨hk, hb, fun c hc => hall c (Memory.mem_of_mem_erase hc), ih hm⟩

theorem Memory.mem_place {m : Memory} {a : Nat} {v : Byte} {c : Host.Cell} (h : c ∈ m.place a v) :
    c = (a, v) ∨ c ∈ m := by
  induction m with
  | nil => simpa [Memory.place] using h
  | cons c' m ih =>
    obtain ⟨k, b⟩ := c'
    by_cases hlt : a < k
    · simpa [Memory.place, hlt] using h
    · simp only [Memory.place, hlt, if_false, List.mem_cons] at h
      rcases h with rfl | h
      · exact Or.inr List.mem_cons_self
      · exact (ih h).imp_right (List.mem_cons_of_mem _)

theorem Memory.wf_place {m : Memory} (h : m.wf = true) {a : Nat} {v : Byte} (ha : a < 4096)
    (hv : v ≠ Memory.unlisted a) (hne : ∀ c ∈ m, c.1 ≠ a) : (m.place a v).wf = true := by
  induction m with
  | nil => simp [Memory.place, Memory.wf, ha, hv]
  | cons c m ih =>
    obtain ⟨k, b⟩ := c
    obtain ⟨hk, hb, hall, hm⟩ := (Memory.wf_cons k b m).1 h
    by_cases hlt : a < k
    · rw [Memory.place, if_pos hlt]
      refine (Memory.wf_cons ..).2 ⟨ha, hv, ?_, h⟩
      intro c hc
      rcases List.mem_cons.1 hc with rfl | hc
      · exact hlt
      · exact hlt.trans (hall c hc)
    · rw [Memory.place, if_neg hlt]
      refine (Memory.wf_cons ..).2 ⟨hk, hb, ?_, ih hm fun c hc => hne c (List.mem_cons_of_mem _ hc)⟩
      intro c hc
      have hka : k ≠ a := hne (k, b) List.mem_cons_self
      rcases Memory.mem_place hc with rfl | hc
      · show k < a; omega
      · exact hall c hc

/-- A write keeps the canonical form. -/
theorem Memory.wf_write {m : Memory} (h : m.wf = true) {a : Nat} (ha : a < 4096) (v : Byte) :
    (m.write a v).wf = true := by
  unfold Memory.write
  split
  · exact Memory.wf_erase h a
  · exact Memory.wf_place (Memory.wf_erase h a) ha ‹_› fun c hc => Memory.mem_erase_ne hc

/-- A block load keeps the canonical form, whatever the base and the bytes (70_reset_and_hazards.md R113). -/
theorem Memory.wf_load {m : Memory} (h : m.wf = true) (base : Nat) (bytes : List Byte) :
    (m.load base bytes).wf = true := by
  induction bytes generalizing m base with
  | nil => exact h
  | cons b bs ih =>
    refine ih ?_ (base + 1)
    split
    · exact Memory.wf_write h ‹_› b
    · exact h

/-- What a block load leaves at an address: its byte if the block covers the address below 4096, else what was there
(70_reset_and_hazards.md R113). -/
theorem Memory.read_load (m : Memory) (base : Nat) (bytes : List Byte) (a : Nat) :
    (m.load base bytes).read a =
      if h : base ≤ a ∧ a - base < bytes.length ∧ a < 4096 then bytes[a - base]'h.2.1 else m.read a := by
  induction bytes generalizing m base with
  | nil => simp [Memory.load]
  | cons b bs ih =>
    rw [Memory.load, ih]
    by_cases hab : a = base
    · subst hab
      by_cases ha : a < 4096
      · simp [ha, Memory.read_write]
      · simp [ha]
    · by_cases hle : base + 1 ≤ a
      · have e : a - base = (a - (base + 1)) + 1 := by omega
        have hle' : base ≤ a := by omega
        simp only [hle, hle', true_and, e, List.length_cons, Nat.add_lt_add_iff_right, List.getElem_cons_succ]
        split
        · rfl
        · split <;> simp [Memory.read_write, hab]
      · have hle' : ¬ base ≤ a := by omega
        simp only [hle, hle', false_and, dite_false]
        split <;> simp [Memory.read_write, hab]

/-- The memory of the reset state is canonical: it lists nothing. -/
theorem Memory.reset_wf : State.reset.mem.wf = true := rfl

end Sys2Proof.Machine
end

