-- ==== Sys2Proof/Laws/State.lean ====
section
/-! SUPPORT. The small lemmas of State: one per field per update, so that no later proof unfolds a record update; and the lemmas of
reading a register after writing one. -/

namespace Sys2Proof.Machine

variable (s : State)

/-! ### setReg -/

@[simp] theorem State.setReg_v (x : Nibble) (b : Byte) : (s.setReg x b).v = s.v.set x.toNat b x.isLt := rfl
@[simp] theorem State.setReg_i (x : Nibble) (b : Byte) : (s.setReg x b).i = s.i := rfl
@[simp] theorem State.setReg_pc (x : Nibble) (b : Byte) : (s.setReg x b).pc = s.pc := rfl
@[simp] theorem State.setReg_stack (x : Nibble) (b : Byte) : (s.setReg x b).stack = s.stack := rfl
@[simp] theorem State.setReg_sp (x : Nibble) (b : Byte) : (s.setReg x b).sp = s.sp := rfl
@[simp] theorem State.setReg_delay (x : Nibble) (b : Byte) : (s.setReg x b).delay = s.delay := rfl
@[simp] theorem State.setReg_sound (x : Nibble) (b : Byte) : (s.setReg x b).sound = s.sound := rfl
@[simp] theorem State.setReg_keys (x : Nibble) (b : Byte) : (s.setReg x b).keys = s.keys := rfl
@[simp] theorem State.setReg_fb (x : Nibble) (b : Byte) : (s.setReg x b).fb = s.fb := rfl
@[simp] theorem State.setReg_mem (x : Nibble) (b : Byte) : (s.setReg x b).mem = s.mem := rfl
@[simp] theorem State.setReg_halted (x : Nibble) (b : Byte) : (s.setReg x b).halted = s.halted := rfl
@[simp] theorem State.setReg_fault (x : Nibble) (b : Byte) : (s.setReg x b).fault = s.fault := rfl
@[simp] theorem State.setReg_vfPolicy (x : Nibble) (b : Byte) : (s.setReg x b).vfPolicy = s.vfPolicy := rfl
@[simp] theorem State.setReg_randDraws (x : Nibble) (b : Byte) : (s.setReg x b).randDraws = s.randDraws := rfl
@[simp] theorem State.setReg_hostTicks (x : Nibble) (b : Byte) : (s.setReg x b).hostTicks = s.hostTicks := rfl
@[simp] theorem State.setReg_tickDraws (x : Nibble) (b : Byte) : (s.setReg x b).tickDraws = s.tickDraws := rfl
@[simp] theorem State.setReg_render (x : Nibble) (b : Byte) : (s.setReg x b).render = s.render := rfl

/-! ### setI -/

@[simp] theorem State.setI_v (w : Word) : (s.setI w).v = s.v := rfl
@[simp] theorem State.setI_i (w : Word) : (s.setI w).i = w := rfl
@[simp] theorem State.setI_pc (w : Word) : (s.setI w).pc = s.pc := rfl
@[simp] theorem State.setI_stack (w : Word) : (s.setI w).stack = s.stack := rfl
@[simp] theorem State.setI_sp (w : Word) : (s.setI w).sp = s.sp := rfl
@[simp] theorem State.setI_delay (w : Word) : (s.setI w).delay = s.delay := rfl
@[simp] theorem State.setI_sound (w : Word) : (s.setI w).sound = s.sound := rfl
@[simp] theorem State.setI_keys (w : Word) : (s.setI w).keys = s.keys := rfl
@[simp] theorem State.setI_fb (w : Word) : (s.setI w).fb = s.fb := rfl
@[simp] theorem State.setI_mem (w : Word) : (s.setI w).mem = s.mem := rfl
@[simp] theorem State.setI_halted (w : Word) : (s.setI w).halted = s.halted := rfl
@[simp] theorem State.setI_fault (w : Word) : (s.setI w).fault = s.fault := rfl
@[simp] theorem State.setI_vfPolicy (w : Word) : (s.setI w).vfPolicy = s.vfPolicy := rfl
@[simp] theorem State.setI_randDraws (w : Word) : (s.setI w).randDraws = s.randDraws := rfl
@[simp] theorem State.setI_hostTicks (w : Word) : (s.setI w).hostTicks = s.hostTicks := rfl
@[simp] theorem State.setI_tickDraws (w : Word) : (s.setI w).tickDraws = s.tickDraws := rfl
@[simp] theorem State.setI_render (w : Word) : (s.setI w).render = s.render := rfl

/-! ### setPc -/

@[simp] theorem State.setPc_v (w : Word) : (s.setPc w).v = s.v := rfl
@[simp] theorem State.setPc_i (w : Word) : (s.setPc w).i = s.i := rfl
@[simp] theorem State.setPc_pc (w : Word) : (s.setPc w).pc = w := rfl
@[simp] theorem State.setPc_stack (w : Word) : (s.setPc w).stack = s.stack := rfl
@[simp] theorem State.setPc_sp (w : Word) : (s.setPc w).sp = s.sp := rfl
@[simp] theorem State.setPc_delay (w : Word) : (s.setPc w).delay = s.delay := rfl
@[simp] theorem State.setPc_sound (w : Word) : (s.setPc w).sound = s.sound := rfl
@[simp] theorem State.setPc_keys (w : Word) : (s.setPc w).keys = s.keys := rfl
@[simp] theorem State.setPc_fb (w : Word) : (s.setPc w).fb = s.fb := rfl
@[simp] theorem State.setPc_mem (w : Word) : (s.setPc w).mem = s.mem := rfl
@[simp] theorem State.setPc_halted (w : Word) : (s.setPc w).halted = s.halted := rfl
@[simp] theorem State.setPc_fault (w : Word) : (s.setPc w).fault = s.fault := rfl
@[simp] theorem State.setPc_vfPolicy (w : Word) : (s.setPc w).vfPolicy = s.vfPolicy := rfl
@[simp] theorem State.setPc_randDraws (w : Word) : (s.setPc w).randDraws = s.randDraws := rfl
@[simp] theorem State.setPc_hostTicks (w : Word) : (s.setPc w).hostTicks = s.hostTicks := rfl
@[simp] theorem State.setPc_tickDraws (w : Word) : (s.setPc w).tickDraws = s.tickDraws := rfl
@[simp] theorem State.setPc_render (w : Word) : (s.setPc w).render = s.render := rfl

/-! ### setStack -/

@[simp] theorem State.setStack_v (st : Vector Word 16) (p : Fin 17) : (s.setStack st p).v = s.v := rfl
@[simp] theorem State.setStack_i (st : Vector Word 16) (p : Fin 17) : (s.setStack st p).i = s.i := rfl
@[simp] theorem State.setStack_pc (st : Vector Word 16) (p : Fin 17) : (s.setStack st p).pc = s.pc := rfl
@[simp] theorem State.setStack_stack (st : Vector Word 16) (p : Fin 17) : (s.setStack st p).stack = st := rfl
@[simp] theorem State.setStack_sp (st : Vector Word 16) (p : Fin 17) : (s.setStack st p).sp = p := rfl
@[simp] theorem State.setStack_delay (st : Vector Word 16) (p : Fin 17) : (s.setStack st p).delay = s.delay := rfl
@[simp] theorem State.setStack_sound (st : Vector Word 16) (p : Fin 17) : (s.setStack st p).sound = s.sound := rfl
@[simp] theorem State.setStack_keys (st : Vector Word 16) (p : Fin 17) : (s.setStack st p).keys = s.keys := rfl
@[simp] theorem State.setStack_fb (st : Vector Word 16) (p : Fin 17) : (s.setStack st p).fb = s.fb := rfl
@[simp] theorem State.setStack_mem (st : Vector Word 16) (p : Fin 17) : (s.setStack st p).mem = s.mem := rfl
@[simp] theorem State.setStack_halted (st : Vector Word 16) (p : Fin 17) : (s.setStack st p).halted = s.halted := rfl
@[simp] theorem State.setStack_fault (st : Vector Word 16) (p : Fin 17) : (s.setStack st p).fault = s.fault := rfl
@[simp] theorem State.setStack_vfPolicy (st : Vector Word 16) (p : Fin 17) : (s.setStack st p).vfPolicy = s.vfPolicy := rfl
@[simp] theorem State.setStack_randDraws (st : Vector Word 16) (p : Fin 17) : (s.setStack st p).randDraws = s.randDraws := rfl
@[simp] theorem State.setStack_hostTicks (st : Vector Word 16) (p : Fin 17) : (s.setStack st p).hostTicks = s.hostTicks := rfl
@[simp] theorem State.setStack_tickDraws (st : Vector Word 16) (p : Fin 17) : (s.setStack st p).tickDraws = s.tickDraws := rfl
@[simp] theorem State.setStack_render (st : Vector Word 16) (p : Fin 17) : (s.setStack st p).render = s.render := rfl

/-! ### setDelayTimer -/

@[simp] theorem State.setDelayTimer_v (b : Byte) : (s.setDelayTimer b).v = s.v := rfl
@[simp] theorem State.setDelayTimer_i (b : Byte) : (s.setDelayTimer b).i = s.i := rfl
@[simp] theorem State.setDelayTimer_pc (b : Byte) : (s.setDelayTimer b).pc = s.pc := rfl
@[simp] theorem State.setDelayTimer_stack (b : Byte) : (s.setDelayTimer b).stack = s.stack := rfl
@[simp] theorem State.setDelayTimer_sp (b : Byte) : (s.setDelayTimer b).sp = s.sp := rfl
@[simp] theorem State.setDelayTimer_delay (b : Byte) : (s.setDelayTimer b).delay = b := rfl
@[simp] theorem State.setDelayTimer_sound (b : Byte) : (s.setDelayTimer b).sound = s.sound := rfl
@[simp] theorem State.setDelayTimer_keys (b : Byte) : (s.setDelayTimer b).keys = s.keys := rfl
@[simp] theorem State.setDelayTimer_fb (b : Byte) : (s.setDelayTimer b).fb = s.fb := rfl
@[simp] theorem State.setDelayTimer_mem (b : Byte) : (s.setDelayTimer b).mem = s.mem := rfl
@[simp] theorem State.setDelayTimer_halted (b : Byte) : (s.setDelayTimer b).halted = s.halted := rfl
@[simp] theorem State.setDelayTimer_fault (b : Byte) : (s.setDelayTimer b).fault = s.fault := rfl
@[simp] theorem State.setDelayTimer_vfPolicy (b : Byte) : (s.setDelayTimer b).vfPolicy = s.vfPolicy := rfl
@[simp] theorem State.setDelayTimer_randDraws (b : Byte) : (s.setDelayTimer b).randDraws = s.randDraws := rfl
@[simp] theorem State.setDelayTimer_hostTicks (b : Byte) : (s.setDelayTimer b).hostTicks = s.hostTicks := rfl
@[simp] theorem State.setDelayTimer_tickDraws (b : Byte) : (s.setDelayTimer b).tickDraws = s.tickDraws := rfl
@[simp] theorem State.setDelayTimer_render (b : Byte) : (s.setDelayTimer b).render = s.render := rfl

/-! ### setSoundTimer -/

@[simp] theorem State.setSoundTimer_v (b : Byte) : (s.setSoundTimer b).v = s.v := rfl
@[simp] theorem State.setSoundTimer_i (b : Byte) : (s.setSoundTimer b).i = s.i := rfl
@[simp] theorem State.setSoundTimer_pc (b : Byte) : (s.setSoundTimer b).pc = s.pc := rfl
@[simp] theorem State.setSoundTimer_stack (b : Byte) : (s.setSoundTimer b).stack = s.stack := rfl
@[simp] theorem State.setSoundTimer_sp (b : Byte) : (s.setSoundTimer b).sp = s.sp := rfl
@[simp] theorem State.setSoundTimer_delay (b : Byte) : (s.setSoundTimer b).delay = s.delay := rfl
@[simp] theorem State.setSoundTimer_sound (b : Byte) : (s.setSoundTimer b).sound = b := rfl
@[simp] theorem State.setSoundTimer_keys (b : Byte) : (s.setSoundTimer b).keys = s.keys := rfl
@[simp] theorem State.setSoundTimer_fb (b : Byte) : (s.setSoundTimer b).fb = s.fb := rfl
@[simp] theorem State.setSoundTimer_mem (b : Byte) : (s.setSoundTimer b).mem = s.mem := rfl
@[simp] theorem State.setSoundTimer_halted (b : Byte) : (s.setSoundTimer b).halted = s.halted := rfl
@[simp] theorem State.setSoundTimer_fault (b : Byte) : (s.setSoundTimer b).fault = s.fault := rfl
@[simp] theorem State.setSoundTimer_vfPolicy (b : Byte) : (s.setSoundTimer b).vfPolicy = s.vfPolicy := rfl
@[simp] theorem State.setSoundTimer_randDraws (b : Byte) : (s.setSoundTimer b).randDraws = s.randDraws := rfl
@[simp] theorem State.setSoundTimer_hostTicks (b : Byte) : (s.setSoundTimer b).hostTicks = s.hostTicks := rfl
@[simp] theorem State.setSoundTimer_tickDraws (b : Byte) : (s.setSoundTimer b).tickDraws = s.tickDraws := rfl
@[simp] theorem State.setSoundTimer_render (b : Byte) : (s.setSoundTimer b).render = s.render := rfl

/-! ### latchKeys -/

@[simp] theorem State.latchKeys_v (k : Keymap) : (s.latchKeys k).v = s.v := rfl
@[simp] theorem State.latchKeys_i (k : Keymap) : (s.latchKeys k).i = s.i := rfl
@[simp] theorem State.latchKeys_pc (k : Keymap) : (s.latchKeys k).pc = s.pc := rfl
@[simp] theorem State.latchKeys_stack (k : Keymap) : (s.latchKeys k).stack = s.stack := rfl
@[simp] theorem State.latchKeys_sp (k : Keymap) : (s.latchKeys k).sp = s.sp := rfl
@[simp] theorem State.latchKeys_delay (k : Keymap) : (s.latchKeys k).delay = s.delay := rfl
@[simp] theorem State.latchKeys_sound (k : Keymap) : (s.latchKeys k).sound = s.sound := rfl
@[simp] theorem State.latchKeys_keys (k : Keymap) : (s.latchKeys k).keys = k := rfl
@[simp] theorem State.latchKeys_fb (k : Keymap) : (s.latchKeys k).fb = s.fb := rfl
@[simp] theorem State.latchKeys_mem (k : Keymap) : (s.latchKeys k).mem = s.mem := rfl
@[simp] theorem State.latchKeys_halted (k : Keymap) : (s.latchKeys k).halted = s.halted := rfl
@[simp] theorem State.latchKeys_fault (k : Keymap) : (s.latchKeys k).fault = s.fault := rfl
@[simp] theorem State.latchKeys_vfPolicy (k : Keymap) : (s.latchKeys k).vfPolicy = s.vfPolicy := rfl
@[simp] theorem State.latchKeys_randDraws (k : Keymap) : (s.latchKeys k).randDraws = s.randDraws := rfl
@[simp] theorem State.latchKeys_hostTicks (k : Keymap) : (s.latchKeys k).hostTicks = s.hostTicks := rfl
@[simp] theorem State.latchKeys_tickDraws (k : Keymap) : (s.latchKeys k).tickDraws = s.tickDraws := rfl
@[simp] theorem State.latchKeys_render (k : Keymap) : (s.latchKeys k).render = s.render := rfl

/-! ### setFb -/

@[simp] theorem State.setFb_v (f : Framebuffer) : (s.setFb f).v = s.v := rfl
@[simp] theorem State.setFb_i (f : Framebuffer) : (s.setFb f).i = s.i := rfl
@[simp] theorem State.setFb_pc (f : Framebuffer) : (s.setFb f).pc = s.pc := rfl
@[simp] theorem State.setFb_stack (f : Framebuffer) : (s.setFb f).stack = s.stack := rfl
@[simp] theorem State.setFb_sp (f : Framebuffer) : (s.setFb f).sp = s.sp := rfl
@[simp] theorem State.setFb_delay (f : Framebuffer) : (s.setFb f).delay = s.delay := rfl
@[simp] theorem State.setFb_sound (f : Framebuffer) : (s.setFb f).sound = s.sound := rfl
@[simp] theorem State.setFb_keys (f : Framebuffer) : (s.setFb f).keys = s.keys := rfl
@[simp] theorem State.setFb_fb (f : Framebuffer) : (s.setFb f).fb = f := rfl
@[simp] theorem State.setFb_mem (f : Framebuffer) : (s.setFb f).mem = s.mem := rfl
@[simp] theorem State.setFb_halted (f : Framebuffer) : (s.setFb f).halted = s.halted := rfl
@[simp] theorem State.setFb_fault (f : Framebuffer) : (s.setFb f).fault = s.fault := rfl
@[simp] theorem State.setFb_vfPolicy (f : Framebuffer) : (s.setFb f).vfPolicy = s.vfPolicy := rfl
@[simp] theorem State.setFb_randDraws (f : Framebuffer) : (s.setFb f).randDraws = s.randDraws := rfl
@[simp] theorem State.setFb_hostTicks (f : Framebuffer) : (s.setFb f).hostTicks = s.hostTicks := rfl
@[simp] theorem State.setFb_tickDraws (f : Framebuffer) : (s.setFb f).tickDraws = s.tickDraws := rfl
@[simp] theorem State.setFb_render (f : Framebuffer) : (s.setFb f).render = s.render := rfl

/-! ### setMem -/

@[simp] theorem State.setMem_v (m : Memory) : (s.setMem m).v = s.v := rfl
@[simp] theorem State.setMem_i (m : Memory) : (s.setMem m).i = s.i := rfl
@[simp] theorem State.setMem_pc (m : Memory) : (s.setMem m).pc = s.pc := rfl
@[simp] theorem State.setMem_stack (m : Memory) : (s.setMem m).stack = s.stack := rfl
@[simp] theorem State.setMem_sp (m : Memory) : (s.setMem m).sp = s.sp := rfl
@[simp] theorem State.setMem_delay (m : Memory) : (s.setMem m).delay = s.delay := rfl
@[simp] theorem State.setMem_sound (m : Memory) : (s.setMem m).sound = s.sound := rfl
@[simp] theorem State.setMem_keys (m : Memory) : (s.setMem m).keys = s.keys := rfl
@[simp] theorem State.setMem_fb (m : Memory) : (s.setMem m).fb = s.fb := rfl
@[simp] theorem State.setMem_mem (m : Memory) : (s.setMem m).mem = m := rfl
@[simp] theorem State.setMem_halted (m : Memory) : (s.setMem m).halted = s.halted := rfl
@[simp] theorem State.setMem_fault (m : Memory) : (s.setMem m).fault = s.fault := rfl
@[simp] theorem State.setMem_vfPolicy (m : Memory) : (s.setMem m).vfPolicy = s.vfPolicy := rfl
@[simp] theorem State.setMem_randDraws (m : Memory) : (s.setMem m).randDraws = s.randDraws := rfl
@[simp] theorem State.setMem_hostTicks (m : Memory) : (s.setMem m).hostTicks = s.hostTicks := rfl
@[simp] theorem State.setMem_tickDraws (m : Memory) : (s.setMem m).tickDraws = s.tickDraws := rfl
@[simp] theorem State.setMem_render (m : Memory) : (s.setMem m).render = s.render := rfl

/-! ### nextRand -/

@[simp] theorem State.nextRand_v : (s.nextRand).v = s.v := rfl
@[simp] theorem State.nextRand_i : (s.nextRand).i = s.i := rfl
@[simp] theorem State.nextRand_pc : (s.nextRand).pc = s.pc := rfl
@[simp] theorem State.nextRand_stack : (s.nextRand).stack = s.stack := rfl
@[simp] theorem State.nextRand_sp : (s.nextRand).sp = s.sp := rfl
@[simp] theorem State.nextRand_delay : (s.nextRand).delay = s.delay := rfl
@[simp] theorem State.nextRand_sound : (s.nextRand).sound = s.sound := rfl
@[simp] theorem State.nextRand_keys : (s.nextRand).keys = s.keys := rfl
@[simp] theorem State.nextRand_fb : (s.nextRand).fb = s.fb := rfl
@[simp] theorem State.nextRand_mem : (s.nextRand).mem = s.mem := rfl
@[simp] theorem State.nextRand_halted : (s.nextRand).halted = s.halted := rfl
@[simp] theorem State.nextRand_fault : (s.nextRand).fault = s.fault := rfl
@[simp] theorem State.nextRand_vfPolicy : (s.nextRand).vfPolicy = s.vfPolicy := rfl
@[simp] theorem State.nextRand_randDraws : (s.nextRand).randDraws = s.randDraws + 1 := rfl
@[simp] theorem State.nextRand_hostTicks : (s.nextRand).hostTicks = s.hostTicks := rfl
@[simp] theorem State.nextRand_tickDraws : (s.nextRand).tickDraws = s.tickDraws := rfl
@[simp] theorem State.nextRand_render : (s.nextRand).render = s.render := rfl

/-! ### halt -/

@[simp] theorem State.halt_v (c : FaultCause) (op : Option Word) : (s.halt c op).v = s.v := rfl
@[simp] theorem State.halt_i (c : FaultCause) (op : Option Word) : (s.halt c op).i = s.i := rfl
@[simp] theorem State.halt_pc (c : FaultCause) (op : Option Word) : (s.halt c op).pc = s.pc := rfl
@[simp] theorem State.halt_stack (c : FaultCause) (op : Option Word) : (s.halt c op).stack = s.stack := rfl
@[simp] theorem State.halt_sp (c : FaultCause) (op : Option Word) : (s.halt c op).sp = s.sp := rfl
@[simp] theorem State.halt_delay (c : FaultCause) (op : Option Word) : (s.halt c op).delay = s.delay := rfl
@[simp] theorem State.halt_sound (c : FaultCause) (op : Option Word) : (s.halt c op).sound = s.sound := rfl
@[simp] theorem State.halt_keys (c : FaultCause) (op : Option Word) : (s.halt c op).keys = s.keys := rfl
@[simp] theorem State.halt_fb (c : FaultCause) (op : Option Word) : (s.halt c op).fb = s.fb := rfl
@[simp] theorem State.halt_mem (c : FaultCause) (op : Option Word) : (s.halt c op).mem = s.mem := rfl
@[simp] theorem State.halt_halted (c : FaultCause) (op : Option Word) : (s.halt c op).halted = true := rfl
@[simp] theorem State.halt_fault (c : FaultCause) (op : Option Word) : (s.halt c op).fault = some { cause := c, pc := s.pc, opcode := op } := rfl
@[simp] theorem State.halt_vfPolicy (c : FaultCause) (op : Option Word) : (s.halt c op).vfPolicy = s.vfPolicy := rfl
@[simp] theorem State.halt_randDraws (c : FaultCause) (op : Option Word) : (s.halt c op).randDraws = s.randDraws := rfl
@[simp] theorem State.halt_hostTicks (c : FaultCause) (op : Option Word) : (s.halt c op).hostTicks = s.hostTicks := rfl
@[simp] theorem State.halt_tickDraws (c : FaultCause) (op : Option Word) : (s.halt c op).tickDraws = s.tickDraws := rfl
@[simp] theorem State.halt_render (c : FaultCause) (op : Option Word) : (s.halt c op).render = s.render := rfl

/-! ### popTick -/

@[simp] theorem State.popTick_v : s.popTick.v = s.v := by unfold State.popTick; split <;> rfl
@[simp] theorem State.popTick_i : s.popTick.i = s.i := by unfold State.popTick; split <;> rfl
@[simp] theorem State.popTick_pc : s.popTick.pc = s.pc := by unfold State.popTick; split <;> rfl
@[simp] theorem State.popTick_stack : s.popTick.stack = s.stack := by unfold State.popTick; split <;> rfl
@[simp] theorem State.popTick_sp : s.popTick.sp = s.sp := by unfold State.popTick; split <;> rfl
@[simp] theorem State.popTick_delay : s.popTick.delay = s.delay := by unfold State.popTick; split <;> rfl
@[simp] theorem State.popTick_sound : s.popTick.sound = s.sound := by unfold State.popTick; split <;> rfl
@[simp] theorem State.popTick_keys : s.popTick.keys = s.keys := by unfold State.popTick; split <;> rfl
@[simp] theorem State.popTick_fb : s.popTick.fb = s.fb := by unfold State.popTick; split <;> rfl
@[simp] theorem State.popTick_mem : s.popTick.mem = s.mem := by unfold State.popTick; split <;> rfl
@[simp] theorem State.popTick_halted : s.popTick.halted = s.halted := by unfold State.popTick; split <;> rfl
@[simp] theorem State.popTick_fault : s.popTick.fault = s.fault := by unfold State.popTick; split <;> rfl
@[simp] theorem State.popTick_vfPolicy : s.popTick.vfPolicy = s.vfPolicy := by unfold State.popTick; split <;> rfl
@[simp] theorem State.popTick_randDraws : s.popTick.randDraws = s.randDraws := by unfold State.popTick; split <;> rfl
@[simp] theorem State.popTick_render : s.popTick.render = s.render := by unfold State.popTick; split <;> rfl

@[simp] theorem State.popTick_hostTicks : s.popTick.hostTicks = s.hostTicks.tail := by
  unfold State.popTick
  split <;> simp_all

/-! ### applyPc -/

@[simp] theorem State.applyPc_v (out : PcOutcome) : (s.applyPc out).v = s.v := by cases out <;> rfl
@[simp] theorem State.applyPc_i (out : PcOutcome) : (s.applyPc out).i = s.i := by cases out <;> rfl
@[simp] theorem State.applyPc_stack (out : PcOutcome) : (s.applyPc out).stack = s.stack := by cases out <;> rfl
@[simp] theorem State.applyPc_sp (out : PcOutcome) : (s.applyPc out).sp = s.sp := by cases out <;> rfl
@[simp] theorem State.applyPc_delay (out : PcOutcome) : (s.applyPc out).delay = s.delay := by cases out <;> rfl
@[simp] theorem State.applyPc_sound (out : PcOutcome) : (s.applyPc out).sound = s.sound := by cases out <;> rfl
@[simp] theorem State.applyPc_keys (out : PcOutcome) : (s.applyPc out).keys = s.keys := by cases out <;> rfl
@[simp] theorem State.applyPc_fb (out : PcOutcome) : (s.applyPc out).fb = s.fb := by cases out <;> rfl
@[simp] theorem State.applyPc_mem (out : PcOutcome) : (s.applyPc out).mem = s.mem := by cases out <;> rfl
@[simp] theorem State.applyPc_halted (out : PcOutcome) : (s.applyPc out).halted = s.halted := by cases out <;> rfl
@[simp] theorem State.applyPc_fault (out : PcOutcome) : (s.applyPc out).fault = s.fault := by cases out <;> rfl
@[simp] theorem State.applyPc_vfPolicy (out : PcOutcome) : (s.applyPc out).vfPolicy = s.vfPolicy := by cases out <;> rfl
@[simp] theorem State.applyPc_randDraws (out : PcOutcome) : (s.applyPc out).randDraws = s.randDraws := by cases out <;> rfl
@[simp] theorem State.applyPc_hostTicks (out : PcOutcome) : (s.applyPc out).hostTicks = s.hostTicks := by cases out <;> rfl
@[simp] theorem State.applyPc_tickDraws (out : PcOutcome) : (s.applyPc out).tickDraws = s.tickDraws := by cases out <;> rfl
@[simp] theorem State.applyPc_render (out : PcOutcome) : (s.applyPc out).render = s.render := by cases out <;> rfl

@[simp] theorem State.applyPc_advance_pc (k : Nat) :
    (s.applyPc (.advance k)).pc = BitVec.ofNat 16 (s.pc.toNat + 2 * k) := rfl

@[simp] theorem State.applyPc_jump_pc (a : Nat) : (s.applyPc (.jump a)).pc = BitVec.ofNat 16 a := rfl

/-! ### Reading a register -/

/-- A register read depends on the register file alone. -/
theorem State.reg_congr {s t : State} (h : t.v = s.v) (x : Nibble) : t.reg x = s.reg x := by
  simp [State.reg, h]

@[simp] theorem State.reg_setReg (x y : Nibble) (b : Byte) :
    (s.setReg x b).reg y = if y = x then b else s.reg y := by
  simp only [State.reg, State.setReg_v, Vector.getElem_set]
  by_cases h : y = x
  · simp [h]
  · have : ¬ x.toNat = y.toNat := fun e => h (BitVec.eq_of_toNat_eq e.symm)
    simp [h, this]

@[simp] theorem State.reg_setI (x : Nibble) (w : Word) : (s.setI w).reg x = s.reg x := rfl
@[simp] theorem State.reg_setPc (x : Nibble) (w : Word) : (s.setPc w).reg x = s.reg x := rfl
@[simp] theorem State.reg_setStack (x : Nibble) (st : Vector Word 16) (p : Fin 17) : (s.setStack st p).reg x = s.reg x := rfl
@[simp] theorem State.reg_setDelayTimer (x : Nibble) (b : Byte) : (s.setDelayTimer b).reg x = s.reg x := rfl
@[simp] theorem State.reg_setSoundTimer (x : Nibble) (b : Byte) : (s.setSoundTimer b).reg x = s.reg x := rfl
@[simp] theorem State.reg_latchKeys (x : Nibble) (k : Keymap) : (s.latchKeys k).reg x = s.reg x := rfl
@[simp] theorem State.reg_setFb (x : Nibble) (f : Framebuffer) : (s.setFb f).reg x = s.reg x := rfl
@[simp] theorem State.reg_setMem (x : Nibble) (m : Memory) : (s.setMem m).reg x = s.reg x := rfl
@[simp] theorem State.reg_nextRand (x : Nibble) : (s.nextRand).reg x = s.reg x := rfl
@[simp] theorem State.reg_halt (x : Nibble) (c : FaultCause) (op : Option Word) : (s.halt c op).reg x = s.reg x := rfl
@[simp] theorem State.reg_popTick (x : Nibble) : s.popTick.reg x = s.reg x := State.reg_congr (by simp) x
@[simp] theorem State.reg_applyPc (out : PcOutcome) (x : Nibble) : (s.applyPc out).reg x = s.reg x := State.reg_congr (by simp) x

/-! ### The timers at the end of a tick -/

@[simp] theorem State.timersDecrement_v : s.timersDecrement.v = s.v := rfl
@[simp] theorem State.timersDecrement_i : s.timersDecrement.i = s.i := rfl
@[simp] theorem State.timersDecrement_pc : s.timersDecrement.pc = s.pc := rfl
@[simp] theorem State.timersDecrement_stack : s.timersDecrement.stack = s.stack := rfl
@[simp] theorem State.timersDecrement_sp : s.timersDecrement.sp = s.sp := rfl
@[simp] theorem State.timersDecrement_delay : s.timersDecrement.delay = decrement s.delay := rfl
@[simp] theorem State.timersDecrement_sound : s.timersDecrement.sound = decrement s.sound := rfl
@[simp] theorem State.timersDecrement_keys : s.timersDecrement.keys = s.keys := rfl
@[simp] theorem State.timersDecrement_fb : s.timersDecrement.fb = s.fb := rfl
@[simp] theorem State.timersDecrement_mem : s.timersDecrement.mem = s.mem := rfl
@[simp] theorem State.timersDecrement_halted : s.timersDecrement.halted = s.halted := rfl
@[simp] theorem State.timersDecrement_fault : s.timersDecrement.fault = s.fault := rfl
@[simp] theorem State.timersDecrement_vfPolicy : s.timersDecrement.vfPolicy = s.vfPolicy := rfl
@[simp] theorem State.timersDecrement_randDraws : s.timersDecrement.randDraws = s.randDraws := rfl
@[simp] theorem State.timersDecrement_hostTicks : s.timersDecrement.hostTicks = s.hostTicks := rfl
@[simp] theorem State.timersDecrement_tickDraws : s.timersDecrement.tickDraws = s.tickDraws := rfl
@[simp] theorem State.timersDecrement_render : s.timersDecrement.render = s.render := rfl
@[simp] theorem State.reg_timersDecrement (x : Nibble) : s.timersDecrement.reg x = s.reg x := rfl

/-! ### offerFrame -/

@[simp] theorem State.offerFrame_v : s.offerFrame.v = s.v := rfl
@[simp] theorem State.offerFrame_i : s.offerFrame.i = s.i := rfl
@[simp] theorem State.offerFrame_pc : s.offerFrame.pc = s.pc := rfl
@[simp] theorem State.offerFrame_stack : s.offerFrame.stack = s.stack := rfl
@[simp] theorem State.offerFrame_sp : s.offerFrame.sp = s.sp := rfl
@[simp] theorem State.offerFrame_delay : s.offerFrame.delay = s.delay := rfl
@[simp] theorem State.offerFrame_sound : s.offerFrame.sound = s.sound := rfl
@[simp] theorem State.offerFrame_keys : s.offerFrame.keys = s.keys := rfl
@[simp] theorem State.offerFrame_fb : s.offerFrame.fb = s.fb := rfl
@[simp] theorem State.offerFrame_mem : s.offerFrame.mem = s.mem := rfl
@[simp] theorem State.offerFrame_halted : s.offerFrame.halted = s.halted := rfl
@[simp] theorem State.offerFrame_fault : s.offerFrame.fault = s.fault := rfl
@[simp] theorem State.offerFrame_vfPolicy : s.offerFrame.vfPolicy = s.vfPolicy := rfl
@[simp] theorem State.offerFrame_randDraws : s.offerFrame.randDraws = s.randDraws := rfl
@[simp] theorem State.offerFrame_hostTicks : s.offerFrame.hostTicks = s.hostTicks := rfl
@[simp] theorem State.offerFrame_tickDraws : s.offerFrame.tickDraws = s.tickDraws := rfl
@[simp] theorem State.offerFrame_render : s.offerFrame.render = some s.fb := rfl
@[simp] theorem State.reg_offerFrame (x : Nibble) : s.offerFrame.reg x = s.reg x := rfl

/-- The end of a tick, in its two parts (60_exceptions.md R101). -/
@[simp] theorem State.endTick_eq : s.endTick = s.timersDecrement.offerFrame := rfl

end Sys2Proof.Machine
end

