-- ==== Sys2Proof/Laws/Ops.lean ====
section
/-! SUPPORT. For each shared operation, once, what it can do. The provers cite these instead of unfolding the operation. -/

namespace Sys2Proof.Machine

/-! ## The ends of an instruction -/

theorem complete_eq (out : PcOutcome) (s : State) : complete out s = .next (s.applyPc out) := rfl

@[simp] theorem finish_done (op : Word) (out : PcOutcome) (s : State) :
    finish op out (.done s) = .next (s.applyPc out) := rfl

@[simp] theorem finish_raised (op : Word) (out : PcOutcome) (cause : FaultCause) (s : State) :
    finish op out (.raised cause s) = .next (s.halt cause (some op)) := rfl

/-- An instruction's end is always a next state. -/
theorem finish_next (op : Word) (out : PcOutcome) (e : Effect) : ∃ t, finish op out e = .next t := by
  cases e <;> exact ⟨_, rfl⟩

/-- `Advance(k)` adds `2 * k` to `PC` modulo 2^16 (10_state.md R19). -/
theorem State.advance_pc (s : State) (k : Nat) : (s.applyPc (.advance k)).pc = s.pc + BitVec.ofNat 16 (2 * k) := by
  apply BitVec.eq_of_toNat_eq
  simp [BitVec.toNat_add]

/-! ## Memory access -/

theorem State.memRead_of_lt (s : State) {a : Nat} (h : a < 4096) : s.memRead a = .ok (s.mem.read a) := if_pos h

theorem State.memRead_of_ge (s : State) {a : Nat} (h : 4096 ≤ a) : s.memRead a = .error (.memoryOutOfRange a) :=
  if_neg (Nat.not_lt.2 h)

theorem State.memWrite_of_lt (s : State) {a : Nat} (h : a < 4096) (b : Byte) :
    s.memWrite a b = .done (s.setMem (s.mem.write a b)) := if_pos h

theorem State.memWrite_of_ge (s : State) {a : Nat} (h : 4096 ≤ a) (b : Byte) :
    s.memWrite a b = .raised (.memoryOutOfRange a) s := if_neg (Nat.not_lt.2 h)

/-- A fetch of two bytes below 4096 (20_memory.md R34). -/
theorem State.fetchWord_of_lt (s : State) {a : Nat} (h : a + 1 < 4096) :
    s.fetchWord a = .ok (opOfBytes (s.mem.read a) (s.mem.read (a + 1))) := by
  simp [State.fetchWord, s.memRead_of_lt h, s.memRead_of_lt (Nat.lt_of_succ_lt h)]

/-- A fetch that leaves memory: the first failing address is reported (60_exceptions.md R96). -/
theorem State.fetchWord_of_ge (s : State) {a : Nat} (h : 4096 ≤ a + 1) :
    s.fetchWord a = .error (.memoryOutOfRange (max a 4096)) := by
  by_cases ha : a < 4096
  · have e : a = 4095 := by omega
    subst e
    simp [State.fetchWord, s.memRead_of_lt ha, s.memRead_of_ge h]
  · rw [State.fetchWord, s.memRead_of_ge (Nat.not_lt.1 ha), Nat.max_eq_left (Nat.not_lt.1 ha)]

/-- Bytes that all fall below 4096 are all written: the memory is that of a block load (44_index_memory.md R83). -/
theorem storeBytes_of_le (bs : List Byte) (a : Nat) (s : State) (h : a + bs.length ≤ 4096) :
    storeBytes a bs s = .done (s.setMem (s.mem.load a bs)) := by
  induction bs generalizing a s with
  | nil => rfl
  | cons b bs ih =>
    have ha : a < 4096 := by simp at h; omega
    rw [storeBytes, s.memWrite_of_lt ha]
    simp only
    rw [ih _ _ (by simp at h; omega)]
    simp [Memory.load, ha, State.setMem]

/-- Bytes that leave memory: the fault is that of the first address out of range, and those before it are written (R83). -/
theorem storeBytes_of_gt (bs : List Byte) (a : Nat) (s : State) (hne : bs ≠ []) (h : 4096 < a + bs.length) :
    storeBytes a bs s = .raised (.memoryOutOfRange (max a 4096)) (s.setMem (s.mem.load a bs)) := by
  induction bs generalizing a s with
  | nil => exact absurd rfl hne
  | cons b bs ih =>
    by_cases ha : a < 4096
    · have hbs : bs ≠ [] := by rintro rfl; simp at h; omega
      rw [storeBytes, s.memWrite_of_lt ha]
      simp only
      rw [ih _ _ hbs (by simp at h; omega), show max (a + 1) 4096 = max a 4096 by omega]
      simp [Memory.load, ha, State.setMem]
    · have ha' : 4096 ≤ a := Nat.not_lt.1 ha
      have load_drop : ∀ (cs : List Byte) (m : Memory) (k : Nat), 4096 ≤ k → m.load k cs = m := by
        intro cs
        induction cs with
        | nil => intros; rfl
        | cons c cs ihc =>
          intro m k hk
          rw [Memory.load, if_neg (Nat.not_lt.2 hk), ihc _ _ (by omega)]
      rw [storeBytes, s.memWrite_of_ge ha', Nat.max_eq_left ha', load_drop _ _ _ ha']
      rfl

/-- A register written by a loop counter below 16 (60_exceptions.md R94, code 4). -/
theorem State.setRegAt_of_lt (s : State) {k : Nat} (h : k < 16) (b : Byte) :
    s.setRegAt k b = .done (s.setReg (BitVec.ofNat 4 k) b) := if_pos h

/-- Registers loaded from bytes that are all below 4096: each holds its byte, and nothing but the register file changes
(44_index_memory.md R89). -/
theorem loadRegs_of_le (count a k : Nat) (s : State) (hk : k + count ≤ 16) (h : a + count ≤ 4096) :
    ∃ t, loadRegs count a k s = .done t ∧ t = { s with v := t.v } ∧
      ∀ y : Nibble, t.reg y =
        if k ≤ y.toNat ∧ y.toNat < k + count then s.mem.read (a + (y.toNat - k)) else s.reg y := by
  induction count generalizing a k s with
  | zero => exact ⟨s, rfl, rfl, fun y => by rw [if_neg (by omega)]⟩
  | succ count ih =>
    obtain ⟨t, ht, hs, hr⟩ := ih (a + 1) (k + 1) (s.setReg (BitVec.ofNat 4 k) (s.mem.read a)) (by omega) (by omega)
    refine ⟨t, ?_, ?_, fun y => ?_⟩
    · rw [loadRegs, s.memRead_of_lt (by omega)]
      simp only [s.setRegAt_of_lt (show k < 16 by omega)]
      exact ht
    · rw [hs]; rfl
    · rw [hr y]
      have hy : y = BitVec.ofNat 4 k ↔ y.toNat = k := by
        rw [← BitVec.toNat_inj, BitVec.toNat_ofNat, Nat.mod_eq_of_lt (by omega)]
      by_cases h1 : y.toNat = k
      · rw [if_neg (by omega), if_pos (by omega), State.reg_setReg, if_pos (hy.2 h1), h1, Nat.sub_self, Nat.add_zero]
      · by_cases h2 : k + 1 ≤ y.toNat ∧ y.toNat < k + 1 + count
        · rw [if_pos h2, if_pos (by omega), State.setReg_mem, show a + 1 + (y.toNat - (k + 1)) = a + (y.toNat - k) by omega]
        · rw [if_neg h2, if_neg (by omega), State.reg_setReg, if_neg (fun e => h1 (hy.1 e))]

/-- Registers loaded from bytes that leave memory: the fault is that of the first address out of range (R83, R89). -/
theorem loadRegs_of_gt (count a k : Nat) (s : State) (hk : k + count ≤ 16) (hc : count ≠ 0) (h : 4096 < a + count) :
    ∃ t, loadRegs count a k s = .raised (.memoryOutOfRange (max a 4096)) t ∧ t = { s with v := t.v } := by
  induction count generalizing a k s with
  | zero => exact absurd rfl hc
  | succ count ih =>
    by_cases ha : a < 4096
    · obtain ⟨t, ht, hs⟩ := ih (a + 1) (k + 1) (s.setReg (BitVec.ofNat 4 k) (s.mem.read a)) (by omega) (by omega) (by omega)
      refine ⟨t, ?_, by rw [hs]; rfl⟩
      rw [loadRegs, s.memRead_of_lt ha]
      simp only [s.setRegAt_of_lt (show k < 16 by omega)]
      rw [ht, show max (a + 1) 4096 = max a 4096 by omega]
    · have ha' : 4096 ≤ a := Nat.not_lt.1 ha
      exact ⟨s, by rw [loadRegs, s.memRead_of_ge ha', Nat.max_eq_left ha'], rfl⟩

/-! ## The call stack -/

theorem State.push_of_lt (s : State) (a : Word) (h : s.sp.val < 16) :
    s.push a = .done (s.setStack (s.stack.set s.sp.val a h) ⟨s.sp.val + 1, Nat.succ_lt_succ h⟩) := dif_pos h

theorem State.push_full (s : State) (a : Word) (h : s.sp.val = 16) : s.push a = .raised .stackOverflow s :=
  dif_neg (by show ¬ s.sp.val < 16; omega)

theorem State.pop_of_pos (s : State) (h : 0 < s.sp.val) :
    s.pop = .ok (s.stack[s.sp.val - 1]'(by omega), s.setStack s.stack ⟨s.sp.val - 1, by omega⟩) :=
  dif_neg (Nat.pos_iff_ne_zero.1 h)

theorem State.pop_empty (s : State) (h : s.sp.val = 0) : s.pop = .error .stackUnderflow := dif_pos h

/-! ## Flags -/

/-- `set_with_flag` with a destination other than `VF` (43_alu.md R70). -/
theorem setWithFlag_of_ne (op : Word) {x : Nibble} (h : x ≠ vF) (res f : Byte) (s : State) :
    setWithFlag op x res f s = .done ((s.setReg x res).setReg vF f) := if_pos h

/-- `set_with_flag` on `VF`, by policy (43_alu.md R70). -/
theorem setWithFlag_vF (op : Word) (res f : Byte) (s : State) :
    setWithFlag op vF res f s =
      match s.vfPolicy with
      | .flagLast => .done ((s.setReg vF res).setReg vF f)
      | .resultLast => .done ((s.setReg vF f).setReg vF res)
      | .fault => .raised (.vfOperandConflict op) s := if_neg (by simp)

/-- Everything `set_with_flag` can do: it writes registers only, or it raises the conflict and writes nothing. -/
theorem setWithFlag_cases (op : Word) (x : Nibble) (res f : Byte) (s : State) :
    (∃ t, setWithFlag op x res f s = .done t ∧ t = { s with v := t.v }) ∨
    (x = vF ∧ s.vfPolicy = .fault ∧ setWithFlag op x res f s = .raised (.vfOperandConflict op) s) := by
  by_cases h : x = vF
  · subst h
    rw [setWithFlag_vF]
    split
    · exact .inl ⟨_, rfl, rfl⟩
    · exact .inl ⟨_, rfl, rfl⟩
    · exact .inr ⟨rfl, ‹_›, rfl⟩
  · exact .inl ⟨_, setWithFlag_of_ne op h res f s, rfl⟩

theorem addResult_eq (a b : Byte) : addResult a b = a + b := by
  apply BitVec.eq_of_toNat_eq
  simp [addResult, BitVec.toNat_add]

theorem subResult_eq (a b : Byte) : subResult a b = a - b := by
  apply BitVec.eq_of_toNat_eq
  have := b.isLt
  simp only [subResult, BitVec.toNat_ofNat, BitVec.toNat_sub]
  omega

theorem shrResult_eq (a : Byte) : shrResult a = BitVec.ofNat 8 (a.toNat / 2) := by
  apply BitVec.eq_of_toNat_eq
  have := a.isLt
  simp only [shrResult, BitVec.toNat_ushiftRight, BitVec.toNat_ofNat, Nat.shiftRight_eq_div_pow]
  omega

theorem shlResult_eq (a : Byte) : shlResult a = BitVec.ofNat 8 (2 * a.toNat) := by
  apply BitVec.eq_of_toNat_eq
  simp only [shlResult, BitVec.toNat_shiftLeft, BitVec.toNat_ofNat, Nat.shiftLeft_eq]
  omega

theorem shrOut_eq (a : Byte) : shrOut a = BitVec.ofNat 8 (a.toNat % 2) := by
  revert a; decide +kernel

theorem shlOut_eq (a : Byte) : shlOut a = BitVec.ofNat 8 (a.toNat / 128) := by
  revert a; decide +kernel

/-! ## Skips and keys -/

/-- A skip is always a next state, two slots on or one (42_skip.md R62). -/
theorem skipIf_eq (c : Bool) (s : State) : skipIf c s = .next (s.applyPc (.advance (if c then 2 else 1))) := rfl

theorem State.keyAt_of_lt (s : State) {k : Byte} (h : k.toNat < 16) : s.keyAt k = .ok s.keys[k.toNat] := dif_pos h

theorem State.keyAt_of_ge (s : State) {k : Byte} (h : 16 ≤ k.toNat) : s.keyAt k = .error (.keyIndexOutOfRange k) :=
  dif_neg (Nat.not_lt.2 h)

/-- A key skip whose index is a key (42_skip.md R67, R68). -/
theorem keySkip_of_lt (op : Word) {k : Byte} (h : k.toNat < 16) (wanted : Bool) (s : State) :
    keySkip op k wanted s = skipIf (s.keys[k.toNat] == wanted) s := by
  rw [keySkip, s.keyAt_of_lt h]

/-- A key skip whose index is none (42_skip.md R67, R68). -/
theorem keySkip_of_ge (op : Word) {k : Byte} (h : 16 ≤ k.toNat) (wanted : Bool) (s : State) :
    keySkip op k wanted s = .next (s.halt (.keyIndexOutOfRange k) (some op)) := by
  rw [keySkip, s.keyAt_of_ge h]; rfl

/-- The scan of the keymap finds a key exactly when it is pressed and no lower one is (45_timers_keys.md R91). -/
theorem State.lowestKey_eq_some (s : State) (k : Fin 16) :
    s.lowestKey = some k ↔ s.keys[k] = true ∧ ∀ j : Fin 16, j < k → s.keys[j] = false := by
  rw [State.lowestKey, List.find?_eq_some_iff_getElem]
  constructor
  · rintro ⟨h, i, hi, hk, hlt⟩
    refine ⟨h, fun j hj => ?_⟩
    have hik : (k : Nat) = i := by rw [← hk]; simp
    have := hlt j.val (by rw [← hik]; exact hj)
    simpa using this
  · rintro ⟨h, hlt⟩
    refine ⟨h, k.val, by simp, by simp, fun j hj => ?_⟩
    have := hlt ⟨j, by omega⟩ hj
    simpa using this

/-- The scan finds nothing exactly when no key is pressed (45_timers_keys.md R91). -/
theorem State.lowestKey_eq_none (s : State) : s.lowestKey = none ↔ ∀ k : Fin 16, s.keys[k] = false := by
  simp [State.lowestKey, List.find?_eq_none]

/-! ## The framebuffer -/

/-- A pixel after one was written (10_state.md R25). -/
theorem Framebuffer.read_write (fb : Framebuffer) (r r' : Fin 32) (c c' : Fin 64) (bit : Bool) :
    Framebuffer.read (Framebuffer.write fb r c bit) r' c' =
      if r' = r ∧ c' = c then bit else Framebuffer.read fb r' c' := by
  simp only [Framebuffer.read, Framebuffer.write, Fin.getElem_fin, Vector.getElem_set]
  by_cases hr : r' = r
  · subst hr
    by_cases hc : c' = c
    · subst hc; simp
    · have : ¬ c.val = c'.val := fun e => hc (Fin.ext e.symm)
      simp [hc, this]
  · have : ¬ r.val = r'.val := fun e => hr (Fin.ext e.symm)
    simp [hr, this]

theorem Framebuffer.read_clear (r : Fin 32) (c : Fin 64) : Framebuffer.read Framebuffer.clear r c = false := by
  simp [Framebuffer.read, Framebuffer.clear]

/-- Two framebuffers with the same pixels are the same data. -/
theorem Framebuffer.ext_pixels {f g : Framebuffer} (h : ∀ r c, Framebuffer.read f r c = Framebuffer.read g r c) : f = g := by
  apply Vector.ext
  intro i hi
  apply Vector.ext
  intro j hj
  exact h ⟨i, hi⟩ ⟨j, hj⟩

/-! ## The timers -/

/-- A timer's decrement as a number (60_exceptions.md R102). -/
theorem decrement_toNat (b : Byte) : (decrement b).toNat = b.toNat - 1 := by
  have := b.isLt
  unfold decrement
  split
  · rw [BitVec.toNat_ofNat]; omega
  · omega

end Sys2Proof.Machine
end

