-- ==== Sys2Proof/Laws/Draw.lean ====
section
/-! SUPPORT. What drawing a pixel, a row's columns and a sprite's rows can do (40_display.md R56). -/

namespace Sys2Proof.Machine

@[simp] theorem State.pixel_setReg (s : State) (x : Nibble) (b : Byte) (r : Fin 32) (c : Fin 64) :
    (s.setReg x b).pixel r c = s.pixel r c := rfl

/-- What a drawing step may change: `VF` and the framebuffer. -/
def DrawFrame (s t : State) : Prop :=
  t = { s with v := t.v, fb := t.fb } ∧ ∀ z, z ≠ vF → t.reg z = s.reg z

theorem DrawFrame.refl (s : State) : DrawFrame s s := ⟨rfl, fun _ _ => rfl⟩

theorem DrawFrame.trans {s t u : State} (h : DrawFrame s t) (h' : DrawFrame t u) : DrawFrame s u :=
  ⟨by rw [h'.1, h.1], fun z hz => (h'.2 z hz).trans (h.2 z hz)⟩

theorem DrawFrame.mem {s t : State} (h : DrawFrame s t) : t.mem = s.mem := by rw [h.1]

theorem DrawFrame.i {s t : State} (h : DrawFrame s t) : t.i = s.i := by rw [h.1]

/-- One pixel (R56): it becomes `old XOR bit`, and `VF` gains bit 0 exactly when both were set. -/
theorem drawPixel_spec (row : Fin 32) (col : Fin 64) (bit : Bool) (s : State) :
    DrawFrame s (drawPixel row col bit s) ∧
    (∀ r c, (drawPixel row col bit s).pixel r c =
      if r = row ∧ c = col then (s.pixel r c ^^ bit) else s.pixel r c) ∧
    (drawPixel row col bit s).reg vF = if s.pixel row col && bit then s.reg vF ||| 1#8 else s.reg vF := by
  unfold drawPixel
  refine ⟨⟨?_, fun z hz => ?_⟩, fun r c => ?_, ?_⟩
  · dsimp only; split <;> rfl
  · dsimp only
    split <;> simp [hz]
  · have key : ∀ u : State, u.fb = s.fb →
        (u.setFb (Framebuffer.write u.fb row col (s.pixel row col ^^ bit))).pixel r c =
          if r = row ∧ c = col then (s.pixel r c ^^ bit) else s.pixel r c := by
      intro u hu
      simp only [State.pixel, State.setFb_fb, Framebuffer.read_write, hu]
      by_cases h : r = row ∧ c = col
      · simp [h]
      · simp [h]
    dsimp only
    split
    · exact key _ rfl
    · exact key _ rfl
  · dsimp only
    split <;> simp_all

/-- The sprite's bit of row `r`, column `c` falls on the pixel. -/
def CoversFrom (b : Byte) (vx row lo hi : Nat) (r : Fin 32) (c : Fin 64) : Prop :=
  ∃ k, lo ≤ k ∧ k < hi ∧ row % 32 = r.val ∧ (vx + k) % 64 = c.val ∧ b.getLsbD (7 - k) = true

/-- `VF` after drawing: it gains bit 0 exactly when some set pixel is covered. -/
def GainsBit (before after : Byte) (hit : Prop) : Prop :=
  (hit → after = before ||| 1#8) ∧ (¬ hit → after = before)

theorem or_one_or_one (b : Byte) : b ||| 1#8 ||| 1#8 = b ||| 1#8 := by
  rw [BitVec.or_assoc, BitVec.or_self]

/-- Two drawing steps on different pixels gain the bit when either does. -/
theorem GainsBit.trans {a b c : Byte} {p q : Prop} (h : GainsBit a b p) (h' : GainsBit b c q) : GainsBit a c (p ∨ q) := by
  classical
  constructor
  · intro hpq
    by_cases hq : q
    · rw [h'.1 hq]
      by_cases hp : p
      · rw [h.1 hp, or_one_or_one]
      · rw [h.2 hp]
    · rw [h'.2 hq, h.1 (hpq.resolve_right hq)]
  · intro hn
    rw [h'.2 fun hq => hn (.inr hq), h.2 fun hp => hn (.inl hp)]

theorem GainsBit.congr {a b : Byte} {p q : Prop} (h : GainsBit a b p) (e : p ↔ q) : GainsBit a b q :=
  ⟨fun hq => h.1 (e.2 hq), fun hq => h.2 fun hp => hq (e.1 hp)⟩

theorem xor_iff_of_not_both {p q r : Prop} (h : ¬ (q ∧ r)) : Xor (Xor p q) r ↔ Xor p (q ∨ r) := by
  unfold Xor; tauto

theorem xor_iff_left {p q : Prop} (h : ¬ q) : Xor p q ↔ p := by
  unfold Xor; tauto

/-- The columns of one sprite row from `c` on (R56): each pixel is XORed with the bit that covers it, and `VF` gains the collision. -/
theorem drawCols_spec (b : Byte) (vx row count c : Nat) (s : State) (hc : c + count ≤ 8) :
    DrawFrame s (drawCols b vx row count c s) ∧
    (∀ r k, ((drawCols b vx row count c s).pixel r k = true ↔
      Xor (s.pixel r k = true) (CoversFrom b vx row c (c + count) r k))) ∧
    GainsBit (s.reg vF) ((drawCols b vx row count c s).reg vF)
      (∃ r k, s.pixel r k = true ∧ CoversFrom b vx row c (c + count) r k) := by
  induction count generalizing c s with
  | zero =>
    have none_covers : ∀ r k, ¬ CoversFrom b vx row c (c + 0) r k := by
      rintro r k ⟨j, h1, h2, _⟩; omega
    refine ⟨.refl s, fun r k => ?_, fun ⟨r, k, _, h⟩ => (none_covers r k h).elim, fun _ => rfl⟩
    rw [drawCols, xor_iff_left (none_covers r k)]
  | succ count ih =>
    obtain ⟨f1, p1, g1⟩ := drawPixel_spec (Fin.ofNat 32 row) (Fin.ofNat 64 (vx + c)) (b.getLsbD (7 - c)) s
    obtain ⟨f2, p2, g2⟩ := ih (c + 1) (drawPixel (Fin.ofNat 32 row) (Fin.ofNat 64 (vx + c)) (b.getLsbD (7 - c)) s) (by omega)
    rw [drawCols]
    have bound : c + 1 + count = c + (count + 1) := by omega
    rw [bound] at p2 g2
    -- the pixel of column `c`, as a proposition
    have first : ∀ r k, CoversFrom b vx row c (c + 1) r k ↔
        (r = Fin.ofNat 32 row ∧ k = Fin.ofNat 64 (vx + c)) ∧ b.getLsbD (7 - c) = true := by
      intro r k
      simp only [CoversFrom, Fin.ext_iff, Fin.val_ofNat]
      constructor
      · rintro ⟨j, h1, h2, h3, h4, h5⟩
        obtain rfl : j = c := by omega
        exact ⟨⟨h3.symm, h4.symm⟩, h5⟩
      · rintro ⟨⟨h3, h4⟩, h5⟩
        exact ⟨c, le_refl _, by omega, h3.symm, h4.symm, h5⟩
    have split_covers : ∀ r k, CoversFrom b vx row c (c + (count + 1)) r k ↔
        CoversFrom b vx row c (c + 1) r k ∨ CoversFrom b vx row (c + 1) (c + (count + 1)) r k := by
      intro r k
      constructor
      · rintro ⟨j, h1, h2, h⟩
        by_cases hj : j = c
        · exact .inl ⟨j, h1, by omega, h⟩
        · exact .inr ⟨j, by omega, h2, h⟩
      · rintro (⟨j, h1, h2, h⟩ | ⟨j, h1, h2, h⟩)
        · exact ⟨j, h1, by omega, h⟩
        · exact ⟨j, by omega, h2, h⟩
    have apart : ∀ r k, ¬ (CoversFrom b vx row c (c + 1) r k ∧ CoversFrom b vx row (c + 1) (c + (count + 1)) r k) := by
      rintro r k ⟨⟨j, h1, h2, h3, h4, h5⟩, ⟨j', h1', h2', h3', h4', h5'⟩⟩
      omega
    have after : ∀ r k, ((drawPixel (Fin.ofNat 32 row) (Fin.ofNat 64 (vx + c)) (b.getLsbD (7 - c)) s).pixel r k = true ↔
        Xor (s.pixel r k = true) (CoversFrom b vx row c (c + 1) r k)) := by
      intro r k
      rw [p1 r k, first r k]
      split
      · rename_i h
        simp only [h, true_and]
        cases s.pixel (Fin.ofNat 32 row) (Fin.ofNat 64 (vx + c)) <;> cases b.getLsbD (7 - c) <;> simp [Xor]
      · rename_i h
        rw [xor_iff_left fun h' => h h'.1]
    refine ⟨f1.trans f2, fun r k => ?_, ?_⟩
    · rw [p2 r k, after r k, xor_iff_of_not_both (apart r k), split_covers r k]
    · have g1' : GainsBit (s.reg vF)
          ((drawPixel (Fin.ofNat 32 row) (Fin.ofNat 64 (vx + c)) (b.getLsbD (7 - c)) s).reg vF)
          (∃ r k, s.pixel r k = true ∧ CoversFrom b vx row c (c + 1) r k) := by
        rw [g1]
        constructor
        · rintro ⟨r, k, hp, hcov⟩
          obtain ⟨⟨rfl, rfl⟩, hb⟩ := (first r k).1 hcov
          rw [if_pos (by rw [hp, hb]; rfl)]
        · intro hn
          rw [if_neg]
          intro hand
          rw [Bool.and_eq_true] at hand
          exact hn ⟨_, _, hand.1, (first _ _).2 ⟨⟨rfl, rfl⟩, hand.2⟩⟩
      refine (g1'.trans g2).congr ?_
      constructor
      · rintro (⟨r, k, hp, hcov⟩ | ⟨r, k, hp, hcov⟩)
        · exact ⟨r, k, hp, (split_covers r k).2 (.inl hcov)⟩
        · refine ⟨r, k, ?_, (split_covers r k).2 (.inr hcov)⟩
          rcases (after r k).1 hp with ⟨h, _⟩ | ⟨h, _⟩
          · exact h
          · exact (apart r k ⟨h, hcov⟩).elim
      · rintro ⟨r, k, hp, hcov⟩
        rcases (split_covers r k).1 hcov with h | h
        · exact .inl ⟨r, k, hp, h⟩
        · refine .inr ⟨r, k, (after r k).2 (.inl ⟨hp, fun h' => apart r k ⟨h', h⟩⟩), h⟩

/-- The sprite rows from `lo` to `hi`, read from memory at `I`, cover the pixel with a set bit. -/
def RowsCover (s : State) (vx vy lo hi : Nat) (r : Fin 32) (c : Fin 64) : Prop :=
  ∃ j, lo ≤ j ∧ j < hi ∧ CoversFrom (s.mem.read (s.dataAddr j)) vx (vy + j) 0 8 r c

/-- The rows of a sprite from row `r` on, all in memory (R56): each pixel is XORed with the bit that covers it, and `VF` gains the
collision. At most 32 rows are distinct, so no pixel is touched twice. -/
theorem drawRows_of_le (vx vy count r : Nat) (s : State) (hr : count = 0 ∨ s.dataAddr (r + count) ≤ 4096) (h32 : count ≤ 32) :
    ∃ t, drawRows vx vy count r s = .done t ∧ DrawFrame s t ∧
    (∀ row col, (t.pixel row col = true ↔ Xor (s.pixel row col = true) (RowsCover s vx vy r (r + count) row col))) ∧
    GainsBit (s.reg vF) (t.reg vF) (∃ row col, s.pixel row col = true ∧ RowsCover s vx vy r (r + count) row col) := by
  induction count generalizing r s with
  | zero =>
    have none_covers : ∀ row col, ¬ RowsCover s vx vy r (r + 0) row col := by
      rintro row col ⟨j, h1, h2, _⟩; omega
    refine ⟨s, rfl, .refl s, fun row col => ?_, fun ⟨row, col, _, h⟩ => (none_covers row col h).elim, fun _ => rfl⟩
    rw [xor_iff_left (none_covers row col)]
  | succ count ih =>
    have hlt : s.dataAddr r < 4096 := by
      rcases hr with h | h
      · omega
      · simp only [State.dataAddr] at h ⊢; omega
    rw [drawRows, s.memRead_of_lt hlt]
    simp only
    obtain ⟨f1, p1, g1⟩ := drawCols_spec (s.mem.read (s.dataAddr r)) vx (vy + r) 8 0 s (by omega)
    generalize drawCols (s.mem.read (s.dataAddr r)) vx (vy + r) 8 0 s = s1 at f1 p1 g1
    have addr : ∀ j, s1.dataAddr j = s.dataAddr j := fun j => by rw [State.dataAddr, f1.i]; rfl
    obtain ⟨t, ht, f2, p2, g2⟩ := ih (r + 1) s1 (by
      rcases hr with h | h
      · omega
      · rw [addr]; right; simpa [State.dataAddr, Nat.add_assoc, Nat.add_comm, Nat.add_left_comm] using h) (by omega)
    have bound : r + 1 + count = r + (count + 1) := by omega
    have later : ∀ row col, RowsCover s1 vx vy (r + 1) (r + (count + 1)) row col ↔
        RowsCover s vx vy (r + 1) (r + (count + 1)) row col := by
      intro row col
      simp only [RowsCover, addr, f1.mem]
    rw [bound] at p2 g2
    simp only [later] at p2 g2
    have split_covers : ∀ row col, RowsCover s vx vy r (r + (count + 1)) row col ↔
        CoversFrom (s.mem.read (s.dataAddr r)) vx (vy + r) 0 8 row col ∨
          RowsCover s vx vy (r + 1) (r + (count + 1)) row col := by
      intro row col
      constructor
      · rintro ⟨j, h1, h2, h⟩
        by_cases hj : j = r
        · subst hj; exact .inl h
        · exact .inr ⟨j, by omega, h2, h⟩
      · rintro (h | ⟨j, h1, h2, h⟩)
        · exact ⟨r, le_refl _, by omega, h⟩
        · exact ⟨j, by omega, h2, h⟩
    have apart : ∀ row col, ¬ (CoversFrom (s.mem.read (s.dataAddr r)) vx (vy + r) 0 8 row col ∧
        RowsCover s vx vy (r + 1) (r + (count + 1)) row col) := by
      rintro row col ⟨⟨k, _, _, h3, _⟩, ⟨j, h1, h2, ⟨k', _, _, h3', _⟩⟩⟩
      omega
    rw [Nat.zero_add] at p1 g1
    refine ⟨t, ht, f1.trans f2, fun row col => ?_, ?_⟩
    · rw [p2 row col, p1 row col, xor_iff_of_not_both (apart row col), split_covers row col]
    · refine (g1.trans g2).congr ?_
      constructor
      · rintro (⟨row, col, hp, hcov⟩ | ⟨row, col, hp, hcov⟩)
        · exact ⟨row, col, hp, (split_covers row col).2 (.inl hcov)⟩
        · refine ⟨row, col, ?_, (split_covers row col).2 (.inr hcov)⟩
          rcases (p1 row col).1 hp with ⟨h, _⟩ | ⟨h, _⟩
          · exact h
          · exact (apart row col ⟨h, hcov⟩).elim
      · rintro ⟨row, col, hp, hcov⟩
        rcases (split_covers row col).1 hcov with h | h
        · exact .inl ⟨row, col, hp, h⟩
        · exact .inr ⟨row, col, (p1 row col).2 (.inl ⟨hp, fun h' => apart row col ⟨h', h⟩⟩), h⟩

/-- The rows of a sprite that leave memory (R56): the fault is that of the first row out of range. -/
theorem drawRows_of_gt (vx vy count r : Nat) (s : State) (hc : count ≠ 0) (h : 4096 < s.dataAddr (r + count)) :
    ∃ t, drawRows vx vy count r s = .raised (.memoryOutOfRange (max (s.dataAddr r) 4096)) t ∧ DrawFrame s t := by
  induction count generalizing r s with
  | zero => exact absurd rfl hc
  | succ count ih =>
    by_cases hlt : s.dataAddr r < 4096
    · rw [drawRows, s.memRead_of_lt hlt]
      simp only
      obtain ⟨f1, -, -⟩ := drawCols_spec (s.mem.read (s.dataAddr r)) vx (vy + r) 8 0 s (by omega)
      generalize drawCols (s.mem.read (s.dataAddr r)) vx (vy + r) 8 0 s = s1 at f1
      have addr : ∀ j, s1.dataAddr j = s.dataAddr j := fun j => by rw [State.dataAddr, f1.i]; rfl
      obtain ⟨t, ht, f2⟩ := ih (r + 1) s1
        (by rintro rfl; simp only [State.dataAddr] at h hlt; omega)
        (by rw [addr]; simpa [State.dataAddr, Nat.add_assoc, Nat.add_comm, Nat.add_left_comm] using h)
      refine ⟨t, ?_, f1.trans f2⟩
      rw [ht, addr]
      simp only [State.dataAddr] at hlt ⊢
      rw [show max (s.i.toNat + (r + 1)) 4096 = max (s.i.toNat + r) 4096 by omega]
    · exact ⟨s, by rw [drawRows, s.memRead_of_ge (Nat.not_lt.1 hlt), Nat.max_eq_left (Nat.not_lt.1 hlt)], .refl s⟩

/-- The rows of a sprite, in terms of `SpriteCovers` (R56). -/
theorem rowsCover_iff (s : State) (vx vy n : Nat) (row : Fin 32) (col : Fin 64) :
    RowsCover s vx vy 0 (0 + n) row col ↔ SpriteCovers s vx vy n row col := by
  constructor
  · rintro ⟨r, _, hr, c, _, hc, h1, h2, h3⟩
    exact ⟨r, c, by omega, hc, h1, h2, h3⟩
  · rintro ⟨r, c, hr, hc, h1, h2, h3⟩
    exact ⟨r, by omega, by omega, c, by omega, hc, h1, h2, h3⟩

end Sys2Proof.Machine
end

