-- ==== Sys2Proof/Laws/PerInstr.lean ====
section
/-! SUPPORT. Per instruction: its opcode is the pattern of its row of the opcode map, with its fields in the places R46 gives them
(30_encoding.md R47, R49). -/

namespace Sys2Proof.Laws.RowMatch

/-- Some row of the opcode map selects the opcode of `i` and reads `i` back from it (30_encoding.md R49). -/
def Statement (i : Instr) : Prop := ∃ row ∈ opcodeMap, encode i &&& row.mask = row.matchBits ∧ row.read (encode i) = i

/-- The rows are picked by their place in R49's table, counted from 0. -/
theorem of_row {i : Instr} (k : Fin 34) (h : encode i &&& (opcodeMap[k.val]'k.isLt).mask = (opcodeMap[k.val]'k.isLt).matchBits)
    (h' : (opcodeMap[k.val]'k.isLt).read (encode i) = i) : Statement i :=
  ⟨opcodeMap[k.val]'k.isLt, List.getElem_mem _, h, h'⟩

/-- Masking with nibbles that are 0 or F keeps or drops a nibble. -/
theorem keep (a : Nibble) : a &&& 0xF#4 = a := by revert a; decide

theorem drop (a : Nibble) : a &&& 0x0#4 = 0x0#4 := by revert a; decide

/-- Masking an opcode given by its nibbles. -/
theorem masked (a b c d : Nibble) (ma mb mc md : Nibble) {mask matchBits : Word} (hm : mask = ofNibbles ma mb mc md)
    (h : ofNibbles (a &&& ma) (b &&& mb) (c &&& mc) (d &&& md) = matchBits) :
    ofNibbles a b c d &&& mask = matchBits := by
  rw [hm, ofNibbles_and, h]

/-- `00E0` (R55). -/
theorem clearScreen : Statement (.clearScreen) := by
  refine of_row 0 (masked 0x0#4 0x0#4 0xE#4 0x0#4 0xF#4 0xF#4 0xF#4 0xF#4 rfl ?_) ?_
  · rfl
  · rfl

/-- `00EE` (R58). -/
theorem ret : Statement (.ret) := by
  refine of_row 1 (masked 0x0#4 0x0#4 0xE#4 0xE#4 0xF#4 0xF#4 0xF#4 0xF#4 rfl ?_) ?_
  · rfl
  · rfl

/-- `1NNN` (R59). -/
theorem jump (nnn : Addr12) : Statement (.jump nnn) := by
  refine of_row 2 (masked 0x1#4 (addrHi nnn) (addrMid nnn) (addrLo nnn) 0xF#4 0x0#4 0x0#4 0x0#4 rfl ?_) ?_
  · simp only [keep, drop]; rfl
  · exact congrArg Instr.jump (opAddr_ofNibbles 0x1#4 (addrHi nnn) (addrMid nnn) (addrLo nnn) |>.trans (addrOf_parts nnn))

/-- `2NNN` (R60). -/
theorem call (nnn : Addr12) : Statement (.call nnn) := by
  refine of_row 3 (masked 0x2#4 (addrHi nnn) (addrMid nnn) (addrLo nnn) 0xF#4 0x0#4 0x0#4 0x0#4 rfl ?_) ?_
  · simp only [keep, drop]; rfl
  · exact congrArg Instr.call (opAddr_ofNibbles 0x2#4 (addrHi nnn) (addrMid nnn) (addrLo nnn) |>.trans (addrOf_parts nnn))

/-- `3XNN` (R63). -/
theorem skipEqImm (x : Nibble) (nn : Byte) : Statement (.skipEqImm x nn) := by
  refine of_row 4 (masked 0x3#4 x (immHi nn) (immLo nn) 0xF#4 0x0#4 0x0#4 0x0#4 rfl ?_) ?_
  · simp only [keep, drop]; rfl
  · exact congr (congrArg Instr.skipEqImm (opX_ofNibbles 0x3#4 x (immHi nn) (immLo nn))) (opImm_ofNibbles 0x3#4 x (immHi nn) (immLo nn) |>.trans (immOf_parts nn))

/-- `4XNN` (R64). -/
theorem skipNeImm (x : Nibble) (nn : Byte) : Statement (.skipNeImm x nn) := by
  refine of_row 5 (masked 0x4#4 x (immHi nn) (immLo nn) 0xF#4 0x0#4 0x0#4 0x0#4 rfl ?_) ?_
  · simp only [keep, drop]; rfl
  · exact congr (congrArg Instr.skipNeImm (opX_ofNibbles 0x4#4 x (immHi nn) (immLo nn))) (opImm_ofNibbles 0x4#4 x (immHi nn) (immLo nn) |>.trans (immOf_parts nn))

/-- `5XY0` (R65). -/
theorem skipEqReg (x : Nibble) (y : Nibble) : Statement (.skipEqReg x y) := by
  refine of_row 6 (masked 0x5#4 x y 0x0#4 0xF#4 0x0#4 0x0#4 0xF#4 rfl ?_) ?_
  · simp only [keep, drop]; rfl
  · exact congr (congrArg Instr.skipEqReg (opX_ofNibbles 0x5#4 x y 0x0#4)) (opY_ofNibbles 0x5#4 x y 0x0#4)

/-- `6XNN` (R71). -/
theorem loadImm (x : Nibble) (nn : Byte) : Statement (.loadImm x nn) := by
  refine of_row 7 (masked 0x6#4 x (immHi nn) (immLo nn) 0xF#4 0x0#4 0x0#4 0x0#4 rfl ?_) ?_
  · simp only [keep, drop]; rfl
  · exact congr (congrArg Instr.loadImm (opX_ofNibbles 0x6#4 x (immHi nn) (immLo nn))) (opImm_ofNibbles 0x6#4 x (immHi nn) (immLo nn) |>.trans (immOf_parts nn))

/-- `7XNN` (R73). -/
theorem addImm (x : Nibble) (nn : Byte) : Statement (.addImm x nn) := by
  refine of_row 8 (masked 0x7#4 x (immHi nn) (immLo nn) 0xF#4 0x0#4 0x0#4 0x0#4 rfl ?_) ?_
  · simp only [keep, drop]; rfl
  · exact congr (congrArg Instr.addImm (opX_ofNibbles 0x7#4 x (immHi nn) (immLo nn))) (opImm_ofNibbles 0x7#4 x (immHi nn) (immLo nn) |>.trans (immOf_parts nn))

/-- `8XY0` (R72). -/
theorem loadReg (x : Nibble) (y : Nibble) : Statement (.loadReg x y) := by
  refine of_row 9 (masked 0x8#4 x y 0x0#4 0xF#4 0x0#4 0x0#4 0xF#4 rfl ?_) ?_
  · simp only [keep, drop]; rfl
  · exact congr (congrArg Instr.loadReg (opX_ofNibbles 0x8#4 x y 0x0#4)) (opY_ofNibbles 0x8#4 x y 0x0#4)

/-- `8XY1` (R74). -/
theorem orReg (x : Nibble) (y : Nibble) : Statement (.orReg x y) := by
  refine of_row 10 (masked 0x8#4 x y 0x1#4 0xF#4 0x0#4 0x0#4 0xF#4 rfl ?_) ?_
  · simp only [keep, drop]; rfl
  · exact congr (congrArg Instr.orReg (opX_ofNibbles 0x8#4 x y 0x1#4)) (opY_ofNibbles 0x8#4 x y 0x1#4)

/-- `8XY2` (R75). -/
theorem andReg (x : Nibble) (y : Nibble) : Statement (.andReg x y) := by
  refine of_row 11 (masked 0x8#4 x y 0x2#4 0xF#4 0x0#4 0x0#4 0xF#4 rfl ?_) ?_
  · simp only [keep, drop]; rfl
  · exact congr (congrArg Instr.andReg (opX_ofNibbles 0x8#4 x y 0x2#4)) (opY_ofNibbles 0x8#4 x y 0x2#4)

/-- `8XY3` (R76). -/
theorem xorReg (x : Nibble) (y : Nibble) : Statement (.xorReg x y) := by
  refine of_row 12 (masked 0x8#4 x y 0x3#4 0xF#4 0x0#4 0x0#4 0xF#4 rfl ?_) ?_
  · simp only [keep, drop]; rfl
  · exact congr (congrArg Instr.xorReg (opX_ofNibbles 0x8#4 x y 0x3#4)) (opY_ofNibbles 0x8#4 x y 0x3#4)

/-- `8XY4` (R77). -/
theorem addReg (x : Nibble) (y : Nibble) : Statement (.addReg x y) := by
  refine of_row 13 (masked 0x8#4 x y 0x4#4 0xF#4 0x0#4 0x0#4 0xF#4 rfl ?_) ?_
  · simp only [keep, drop]; rfl
  · exact congr (congrArg Instr.addReg (opX_ofNibbles 0x8#4 x y 0x4#4)) (opY_ofNibbles 0x8#4 x y 0x4#4)

/-- `8XY5` (R78). -/
theorem sub (x : Nibble) (y : Nibble) : Statement (.sub x y) := by
  refine of_row 14 (masked 0x8#4 x y 0x5#4 0xF#4 0x0#4 0x0#4 0xF#4 rfl ?_) ?_
  · simp only [keep, drop]; rfl
  · exact congr (congrArg Instr.sub (opX_ofNibbles 0x8#4 x y 0x5#4)) (opY_ofNibbles 0x8#4 x y 0x5#4)

/-- `8XY6` (R80). -/
theorem shr (x : Nibble) (y : Nibble) : Statement (.shr x y) := by
  refine of_row 15 (masked 0x8#4 x y 0x6#4 0xF#4 0x0#4 0x0#4 0xF#4 rfl ?_) ?_
  · simp only [keep, drop]; rfl
  · exact congr (congrArg Instr.shr (opX_ofNibbles 0x8#4 x y 0x6#4)) (opY_ofNibbles 0x8#4 x y 0x6#4)

/-- `8XY7` (R79). -/
theorem subn (x : Nibble) (y : Nibble) : Statement (.subn x y) := by
  refine of_row 16 (masked 0x8#4 x y 0x7#4 0xF#4 0x0#4 0x0#4 0xF#4 rfl ?_) ?_
  · simp only [keep, drop]; rfl
  · exact congr (congrArg Instr.subn (opX_ofNibbles 0x8#4 x y 0x7#4)) (opY_ofNibbles 0x8#4 x y 0x7#4)

/-- `8XYE` (R81). -/
theorem shl (x : Nibble) (y : Nibble) : Statement (.shl x y) := by
  refine of_row 17 (masked 0x8#4 x y 0xE#4 0xF#4 0x0#4 0x0#4 0xF#4 rfl ?_) ?_
  · simp only [keep, drop]; rfl
  · exact congr (congrArg Instr.shl (opX_ofNibbles 0x8#4 x y 0xE#4)) (opY_ofNibbles 0x8#4 x y 0xE#4)

/-- `9XY0` (R66). -/
theorem skipNeReg (x : Nibble) (y : Nibble) : Statement (.skipNeReg x y) := by
  refine of_row 18 (masked 0x9#4 x y 0x0#4 0xF#4 0x0#4 0x0#4 0xF#4 rfl ?_) ?_
  · simp only [keep, drop]; rfl
  · exact congr (congrArg Instr.skipNeReg (opX_ofNibbles 0x9#4 x y 0x0#4)) (opY_ofNibbles 0x9#4 x y 0x0#4)

/-- `ANNN` (R84). -/
theorem loadIndex (nnn : Addr12) : Statement (.loadIndex nnn) := by
  refine of_row 19 (masked 0xA#4 (addrHi nnn) (addrMid nnn) (addrLo nnn) 0xF#4 0x0#4 0x0#4 0x0#4 rfl ?_) ?_
  · simp only [keep, drop]; rfl
  · exact congrArg Instr.loadIndex (opAddr_ofNibbles 0xA#4 (addrHi nnn) (addrMid nnn) (addrLo nnn) |>.trans (addrOf_parts nnn))

/-- `BNNN` (R61). -/
theorem jumpPlusV0 (nnn : Addr12) : Statement (.jumpPlusV0 nnn) := by
  refine of_row 20 (masked 0xB#4 (addrHi nnn) (addrMid nnn) (addrLo nnn) 0xF#4 0x0#4 0x0#4 0x0#4 rfl ?_) ?_
  · simp only [keep, drop]; rfl
  · exact congrArg Instr.jumpPlusV0 (opAddr_ofNibbles 0xB#4 (addrHi nnn) (addrMid nnn) (addrLo nnn) |>.trans (addrOf_parts nnn))

/-- `CXNN` (R82). -/
theorem rand (x : Nibble) (nn : Byte) : Statement (.rand x nn) := by
  refine of_row 21 (masked 0xC#4 x (immHi nn) (immLo nn) 0xF#4 0x0#4 0x0#4 0x0#4 rfl ?_) ?_
  · simp only [keep, drop]; rfl
  · exact congr (congrArg Instr.rand (opX_ofNibbles 0xC#4 x (immHi nn) (immLo nn))) (opImm_ofNibbles 0xC#4 x (immHi nn) (immLo nn) |>.trans (immOf_parts nn))

/-- `DXYN` (R56). -/
theorem draw (x : Nibble) (y : Nibble) (n : Nibble) : Statement (.draw x y n) := by
  refine of_row 22 (masked 0xD#4 x y n 0xF#4 0x0#4 0x0#4 0x0#4 rfl ?_) ?_
  · simp only [keep, drop]; rfl
  · exact congr (congr (congrArg Instr.draw (opX_ofNibbles 0xD#4 x y n)) (opY_ofNibbles 0xD#4 x y n)) (opN_ofNibbles 0xD#4 x y n)

/-- `EX9E` (R67). -/
theorem skipKeyPressed (x : Nibble) : Statement (.skipKeyPressed x) := by
  refine of_row 23 (masked 0xE#4 x 0x9#4 0xE#4 0xF#4 0x0#4 0xF#4 0xF#4 rfl ?_) ?_
  · simp only [keep, drop]; rfl
  · exact congrArg Instr.skipKeyPressed (opX_ofNibbles 0xE#4 x 0x9#4 0xE#4)

/-- `EXA1` (R68). -/
theorem skipKeyNotPressed (x : Nibble) : Statement (.skipKeyNotPressed x) := by
  refine of_row 24 (masked 0xE#4 x 0xA#4 0x1#4 0xF#4 0x0#4 0xF#4 0xF#4 rfl ?_) ?_
  · simp only [keep, drop]; rfl
  · exact congrArg Instr.skipKeyNotPressed (opX_ofNibbles 0xE#4 x 0xA#4 0x1#4)

/-- `FX07` (R90). -/
theorem loadDelay (x : Nibble) : Statement (.loadDelay x) := by
  refine of_row 25 (masked 0xF#4 x 0x0#4 0x7#4 0xF#4 0x0#4 0xF#4 0xF#4 rfl ?_) ?_
  · simp only [keep, drop]; rfl
  · exact congrArg Instr.loadDelay (opX_ofNibbles 0xF#4 x 0x0#4 0x7#4)

/-- `FX0A` (R91). -/
theorem waitKey (x : Nibble) : Statement (.waitKey x) := by
  refine of_row 26 (masked 0xF#4 x 0x0#4 0xA#4 0xF#4 0x0#4 0xF#4 0xF#4 rfl ?_) ?_
  · simp only [keep, drop]; rfl
  · exact congrArg Instr.waitKey (opX_ofNibbles 0xF#4 x 0x0#4 0xA#4)

/-- `FX15` (R92). -/
theorem setDelay (x : Nibble) : Statement (.setDelay x) := by
  refine of_row 27 (masked 0xF#4 x 0x1#4 0x5#4 0xF#4 0x0#4 0xF#4 0xF#4 rfl ?_) ?_
  · simp only [keep, drop]; rfl
  · exact congrArg Instr.setDelay (opX_ofNibbles 0xF#4 x 0x1#4 0x5#4)

/-- `FX18` (R93). -/
theorem setSound (x : Nibble) : Statement (.setSound x) := by
  refine of_row 28 (masked 0xF#4 x 0x1#4 0x8#4 0xF#4 0x0#4 0xF#4 0xF#4 rfl ?_) ?_
  · simp only [keep, drop]; rfl
  · exact congrArg Instr.setSound (opX_ofNibbles 0xF#4 x 0x1#4 0x8#4)

/-- `FX1E` (R85). -/
theorem addIndex (x : Nibble) : Statement (.addIndex x) := by
  refine of_row 29 (masked 0xF#4 x 0x1#4 0xE#4 0xF#4 0x0#4 0xF#4 0xF#4 rfl ?_) ?_
  · simp only [keep, drop]; rfl
  · exact congrArg Instr.addIndex (opX_ofNibbles 0xF#4 x 0x1#4 0xE#4)

/-- `FX29` (R86). -/
theorem fontAddr (x : Nibble) : Statement (.fontAddr x) := by
  refine of_row 30 (masked 0xF#4 x 0x2#4 0x9#4 0xF#4 0x0#4 0xF#4 0xF#4 rfl ?_) ?_
  · simp only [keep, drop]; rfl
  · exact congrArg Instr.fontAddr (opX_ofNibbles 0xF#4 x 0x2#4 0x9#4)

/-- `FX33` (R87). -/
theorem bcd (x : Nibble) : Statement (.bcd x) := by
  refine of_row 31 (masked 0xF#4 x 0x3#4 0x3#4 0xF#4 0x0#4 0xF#4 0xF#4 rfl ?_) ?_
  · simp only [keep, drop]; rfl
  · exact congrArg Instr.bcd (opX_ofNibbles 0xF#4 x 0x3#4 0x3#4)

/-- `FX55` (R88). -/
theorem storeRange (x : Nibble) : Statement (.storeRange x) := by
  refine of_row 32 (masked 0xF#4 x 0x5#4 0x5#4 0xF#4 0x0#4 0xF#4 0xF#4 rfl ?_) ?_
  · simp only [keep, drop]; rfl
  · exact congrArg Instr.storeRange (opX_ofNibbles 0xF#4 x 0x5#4 0x5#4)

/-- `FX65` (R89). -/
theorem loadRange (x : Nibble) : Statement (.loadRange x) := by
  refine of_row 33 (masked 0xF#4 x 0x6#4 0x5#4 0xF#4 0x0#4 0xF#4 0xF#4 rfl ?_) ?_
  · simp only [keep, drop]; rfl
  · exact congrArg Instr.loadRange (opX_ofNibbles 0xF#4 x 0x6#4 0x5#4)

end Sys2Proof.Laws.RowMatch
end

