-- ==== Sys2Proof/Laws/Step.lean ====
section
/-! SUPPORT. What a fetch, a cycle, a tick and a step can do, said once. -/

namespace Sys2Proof.Machine

/-- Two states that agree on `PC` and memory fetch the same. -/
theorem State.fetch_congr {s t : State} (hpc : t.pc = s.pc) (hm : t.mem = s.mem) : t.fetch = s.fetch := by
  simp [State.fetch, State.fetchWord, State.memRead, hpc, hm]

/-- The fetch at a `PC` of at most 0xFFE (20_memory.md R34). -/
theorem State.fetch_of_le (s : State) (h : s.pc.toNat ≤ 0xFFE) :
    s.fetch = .ok (opOfBytes (s.mem.read s.pc.toNat) (s.mem.read (s.pc.toNat + 1))) :=
  s.fetchWord_of_lt (by omega)

/-- The fetch at a `PC` of at least 0xFFF (20_memory.md R34). -/
theorem State.fetch_of_ge (s : State) (h : 0xFFF ≤ s.pc.toNat) :
    s.fetch = .error (.memoryOutOfRange (max s.pc.toNat 4096)) :=
  s.fetchWord_of_ge (by omega)

/-- A fetch that succeeds was at a `PC` of at most 0xFFE (10_state.md R20). -/
theorem State.pc_of_fetch {s : State} {op : Word} (h : s.fetch = .ok op) : s.pc.toNat ≤ 0xFFE := by
  by_contra hge
  rw [s.fetch_of_ge (by omega)] at h
  cases h

/-- An unknown opcode only advances (30_encoding.md R50). -/
theorem execUnknown_eq (op : Word) (s : State) : execUnknown op s = .next (s.applyPc (.advance 1)) := rfl

/-- A cycle whose fetch fails takes that fault, with no opcode (30_encoding.md R52, 60_exceptions.md R95). -/
theorem cycle_of_fetch_error {s : State} {cause : FaultCause} (h : s.fetch = .error cause) :
    cycle s = .next (s.halt cause none) := by
  rw [cycle, h]

/-- A cycle whose fetch succeeds runs what the opcode decodes to (R52). -/
theorem cycle_of_fetch {s : State} {op : Word} (h : s.fetch = .ok op) : cycle s = execDecoded (decode op) s := by
  rw [cycle, h]

/-- A tick of a halted machine has no step (60_exceptions.md R95, R101). -/
theorem tick_of_halted (snapshot : Keymap) (run : Bool) {s : State} (h : s.halted = true) :
    tick snapshot run s = .fault (.machineHalted s.fault) := if_pos h

/-- A tick without a cycle (R101). -/
theorem tick_idle (snapshot : Keymap) {s : State} (h : s.halted = false) :
    tick snapshot false s = .next (s.latchKeys snapshot).endTick := by
  simp [tick, h]

/-- A tick with a cycle that answers a next state (R101). -/
theorem tick_run (snapshot : Keymap) {s u : State} (h : s.halted = false) (hc : cycle (s.latchKeys snapshot) = .next u) :
    tick snapshot true s = .next (afterCycle u) := by
  simp [tick, h, hc]

/-- Everything a tick that answers a next state can have done (R101). -/
theorem tick_cases {snapshot : Keymap} {run : Bool} {s t : State} (h : tick snapshot run s = .next t) :
    s.halted = false ∧
    ((run = false ∧ t = (s.latchKeys snapshot).endTick) ∨
     (run = true ∧ ∃ u, cycle (s.latchKeys snapshot) = .next u ∧ t = afterCycle u)) := by
  unfold tick at h
  split at h
  · cases h
  · rename_i hh
    refine ⟨by simpa using hh, ?_⟩
    split at h
    · rename_i hr
      split at h
      · rename_i u hu
        cases h
        exact .inr ⟨hr, u, hu, rfl⟩
      · cases h
      · cases h
    · rename_i hr
      cases h
      exact .inl ⟨by simpa using hr, rfl⟩

/-- A cycle that answers a next state took a fetch fault, or ran an instruction, or ran an unknown opcode (R52). -/
theorem cycle_cases {s u : State} (h : cycle s = .next u) :
    (∃ cause, s.fetch = .error cause ∧ u = s.halt cause none) ∨
    (∃ op i, s.fetch = .ok op ∧ decode op = .instr i ∧ exec i s = .next u) ∨
    (∃ op, s.fetch = .ok op ∧ decode op = .unknown op ∧ u = s.applyPc (.advance 1)) := by
  unfold cycle at h
  split at h
  · rename_i cause hf
    cases h
    exact .inl ⟨cause, hf, rfl⟩
  · rename_i op hf
    cases hd : decode op with
    | instr i =>
      rw [hd] at h
      exact .inr (.inl ⟨op, i, hf, hd, h⟩)
    | unknown op' =>
      rw [hd] at h
      have : op' = op := by
        unfold decode at hd
        split at hd <;> simp_all
      subst this
      cases h
      exact .inr (.inr ⟨op', hf, hd, rfl⟩)

@[simp] theorem State.fetch_popTick (s : State) : s.popTick.fetch = s.fetch := State.fetch_congr (by simp) (by simp)

@[simp] theorem State.fetch_latchKeys (s : State) (k : Keymap) : (s.latchKeys k).fetch = s.fetch := State.fetch_congr rfl rfl

/-- Where the machine has not halted, the end of its tick decrements the timers and offers the framebuffer (R101). -/
theorem afterCycle_running {s : State} (h : s.halted = false) : afterCycle s = s.timersDecrement.offerFrame := by
  simp [afterCycle, h]

/-- Where the cycle has faulted the tick has ended: nothing is decremented and nothing is offered (R95, R101). -/
theorem afterCycle_halted {s : State} (h : s.halted = true) : afterCycle s = s := if_pos h

theorem afterCycle_eq (s : State) : afterCycle s = if s.halted then s else s.timersDecrement.offerFrame := rfl

@[simp] theorem afterCycle_keys (s : State) : (afterCycle s).keys = s.keys := by unfold afterCycle; split <;> rfl

@[simp] theorem afterCycle_mem (s : State) : (afterCycle s).mem = s.mem := by unfold afterCycle; split <;> rfl

@[simp] theorem afterCycle_pc (s : State) : (afterCycle s).pc = s.pc := by unfold afterCycle; split <;> rfl

@[simp] theorem afterCycle_stack (s : State) : (afterCycle s).stack = s.stack := by unfold afterCycle; split <;> rfl

@[simp] theorem afterCycle_halt (s : State) : (afterCycle s).halted = s.halted := by unfold afterCycle; split <;> rfl

@[simp] theorem afterCycle_fault (s : State) : (afterCycle s).fault = s.fault := by unfold afterCycle; split <;> rfl

@[simp] theorem afterCycle_vfPolicy (s : State) : (afterCycle s).vfPolicy = s.vfPolicy := by unfold afterCycle; split <;> rfl

/-- The renderer is offered the framebuffer of a tick that completes, and keeps what it had where the tick faults (R101, R104). -/
theorem afterCycle_render (s : State) : (afterCycle s).render = if s.halted then s.render else some s.fb := by
  rw [afterCycle_eq]
  split <;> rfl

/-- A run over a tick and the rest goes on from that tick's next state. -/
theorem runTicks_cons {a : HostTick} {s s' : State} (ts : List HostTick) (h : tick a.snapshot a.run s = .next s') :
    runTicks (a :: ts) s = runTicks ts s' := by
  rw [runTicks, h]

/-- A run that has answered a next state goes on from there. -/
theorem runTicks_append {ts : List HostTick} {s t : State} (us : List HostTick) (h : runTicks ts s = .next t) :
    runTicks (ts ++ us) s = runTicks us t := by
  induction ts generalizing s with
  | nil => cases h; rfl
  | cons a ts ih =>
    rw [runTicks] at h
    split at h
    · rename_i s' hs
      rw [List.cons_append, runTicks_cons _ hs]
      exact ih h
    · cases h
    · cases h

/-- A run with a further tick that answers a next state started from a machine that had not halted (R95). -/
theorem runTicks_cons_running {a : HostTick} {ts : List HostTick} {s t : State} (h : runTicks (a :: ts) s = .next t) :
    s.halted = false := by
  rw [runTicks] at h
  split at h
  · rename_i s' hs
    exact (tick_cases hs).1
  · cases h
  · cases h

end Sys2Proof.Machine
end

