-- ==== Sys2Proof/Tests/Slice0.lean ====
section
/-! SUPPORT. The model's own tests. Expected values come from spec/: words written out from 30_encoding.md R47 and R49, and the vectors
of 95_test_vectors.md, whose names (ALU4, MEM13, ...) stand in the comments. Last, one witness for the hypotheses of each statement. -/

namespace Sys2Proof.Tests

open Sys2Proof Sys2Proof.Machine

/-! ## Helpers -/

/-- The state after an instruction, if it answers one. -/
def after (i : Instr) (s : State) : Option State :=
  match exec i s with
  | .next t => some t
  | _ => none

/-- The state after a step, if it answers one. -/
def stepped (s : State) : Option State :=
  match step s with
  | .next t => some t
  | _ => none

/-- The reset state with some registers set. -/
def withRegs (l : List (Nibble × Byte)) : State := l.foldl (fun s c => s.setReg c.1 c.2) State.reset

/-- A state with bytes placed from an address on. -/
def withBytes (a : Nat) (bs : List Byte) (s : State) : State := s.setMem (s.mem.load a bs)

/-- A keymap with the keys of a list pressed. -/
def pressed (l : List (Fin 16)) : Keymap := l.foldl (fun k j => k.set j.val true) (Vector.replicate 16 false)

/-- A state with one pixel set. -/
def withPixel (r : Fin 32) (c : Fin 64) (s : State) : State := s.setFb (Framebuffer.write s.fb r c true)

/-- A state to which the host has sent one tick. -/
def withTick (snapshot : Keymap) (run : Bool) (s : State) : State :=
  { s with hostTicks := { snapshot := snapshot, run := run } :: s.hostTicks }

/-- A state with an entry on the stack in place `j` and `SP = p`. -/
def withStack (j : Fin 16) (a : Word) (p : Fin 17) (s : State) : State := s.setStack (s.stack.set j.val a) p

/-- The cause of the halt of a state, with the address it records. -/
def haltOf (s : State) : Option (FaultCause × Word) := if s.halted then s.fault.map (fun d => (d.cause, d.pc)) else none

/-! ## The well-formedness check refuses the forms R16 forbids -/

theorem test_illformed_addReg : (Instr.addReg 15 0).wellFormed = false := by decide

theorem test_illformed_sub : (Instr.sub 15 0).wellFormed = false := by decide

theorem test_illformed_shr : (Instr.shr 15 0).wellFormed = false := by decide

theorem test_illformed_subn : (Instr.subn 15 0).wellFormed = false := by decide

theorem test_illformed_shl : (Instr.shl 15 0).wellFormed = false := by decide

theorem test_wellformed_addReg_from_vF : (Instr.addReg 0 15).wellFormed = true := by decide

theorem test_wellformed_loadImm_vF : (Instr.loadImm 15 0).wellFormed = true := by decide

/-! ## Decoding: one word per constructor, written out bit by bit (R47, R49); x = 1010, y = 0101, n = 0110, nn = 1100_0011 -/

theorem test_decode_clearScreen : decode 0b0000000011100000#16 = .instr .clearScreen := by decide

theorem test_decode_ret : decode 0b0000000011101110#16 = .instr .ret := by decide

theorem test_decode_jump : decode 0b0001101001010110#16 = .instr (.jump 0xA56) := by decide

theorem test_decode_call : decode 0b0010101001010110#16 = .instr (.call 0xA56) := by decide

theorem test_decode_skipEqImm : decode 0b0011101011000011#16 = .instr (.skipEqImm 0xA 0xC3) := by decide

theorem test_decode_skipNeImm : decode 0b0100101011000011#16 = .instr (.skipNeImm 0xA 0xC3) := by decide

theorem test_decode_skipEqReg : decode 0b0101101001010000#16 = .instr (.skipEqReg 0xA 0x5) := by decide

theorem test_decode_loadImm : decode 0b0110101011000011#16 = .instr (.loadImm 0xA 0xC3) := by decide

theorem test_decode_addImm : decode 0b0111101011000011#16 = .instr (.addImm 0xA 0xC3) := by decide

theorem test_decode_loadReg : decode 0b1000101001010000#16 = .instr (.loadReg 0xA 0x5) := by decide

theorem test_decode_orReg : decode 0b1000101001010001#16 = .instr (.orReg 0xA 0x5) := by decide

theorem test_decode_andReg : decode 0b1000101001010010#16 = .instr (.andReg 0xA 0x5) := by decide

theorem test_decode_xorReg : decode 0b1000101001010011#16 = .instr (.xorReg 0xA 0x5) := by decide

theorem test_decode_addReg : decode 0b1000101001010100#16 = .instr (.addReg 0xA 0x5) := by decide

theorem test_decode_sub : decode 0b1000101001010101#16 = .instr (.sub 0xA 0x5) := by decide

theorem test_decode_shr : decode 0b1000101001010110#16 = .instr (.shr 0xA 0x5) := by decide

theorem test_decode_subn : decode 0b1000101001010111#16 = .instr (.subn 0xA 0x5) := by decide

theorem test_decode_shl : decode 0b1000101001011110#16 = .instr (.shl 0xA 0x5) := by decide

theorem test_decode_skipNeReg : decode 0b1001101001010000#16 = .instr (.skipNeReg 0xA 0x5) := by decide

theorem test_decode_loadIndex : decode 0b1010101001010110#16 = .instr (.loadIndex 0xA56) := by decide

theorem test_decode_jumpPlusV0 : decode 0b1011101001010110#16 = .instr (.jumpPlusV0 0xA56) := by decide

theorem test_decode_rand : decode 0b1100101011000011#16 = .instr (.rand 0xA 0xC3) := by decide

theorem test_decode_draw : decode 0b1101101001010110#16 = .instr (.draw 0xA 0x5 0x6) := by decide

theorem test_decode_skipKeyPressed : decode 0b1110101010011110#16 = .instr (.skipKeyPressed 0xA) := by decide

theorem test_decode_skipKeyNotPressed : decode 0b1110101010100001#16 = .instr (.skipKeyNotPressed 0xA) := by decide

theorem test_decode_loadDelay : decode 0b1111101000000111#16 = .instr (.loadDelay 0xA) := by decide

theorem test_decode_waitKey : decode 0b1111101000001010#16 = .instr (.waitKey 0xA) := by decide

theorem test_decode_setDelay : decode 0b1111101000010101#16 = .instr (.setDelay 0xA) := by decide

theorem test_decode_setSound : decode 0b1111101000011000#16 = .instr (.setSound 0xA) := by decide

theorem test_decode_addIndex : decode 0b1111101000011110#16 = .instr (.addIndex 0xA) := by decide

theorem test_decode_fontAddr : decode 0b1111101000101001#16 = .instr (.fontAddr 0xA) := by decide

theorem test_decode_bcd : decode 0b1111101000110011#16 = .instr (.bcd 0xA) := by decide

theorem test_decode_storeRange : decode 0b1111101001010101#16 = .instr (.storeRange 0xA) := by decide

theorem test_decode_loadRange : decode 0b1111101001100101#16 = .instr (.loadRange 0xA) := by decide

/-! DEC1 to DEC11: opcodes that select no row (R50, R51). -/

theorem test_unknown_0000 : decode 0x0000#16 = .unknown 0x0000#16 := by decide

theorem test_unknown_0123 : decode 0x0123#16 = .unknown 0x0123#16 := by decide

theorem test_unknown_00E1 : decode 0x00E1#16 = .unknown 0x00E1#16 := by decide

theorem test_unknown_00FF : decode 0x00FF#16 = .unknown 0x00FF#16 := by decide

theorem test_unknown_5AB1 : decode 0x5AB1#16 = .unknown 0x5AB1#16 := by decide

theorem test_unknown_8AB8 : decode 0x8AB8#16 = .unknown 0x8AB8#16 := by decide

theorem test_unknown_8ABF : decode 0x8ABF#16 = .unknown 0x8ABF#16 := by decide

theorem test_unknown_9AB1 : decode 0x9AB1#16 = .unknown 0x9AB1#16 := by decide

theorem test_unknown_EA9F : decode 0xEA9F#16 = .unknown 0xEA9F#16 := by decide

theorem test_unknown_FA00 : decode 0xFA00#16 = .unknown 0xFA00#16 := by decide

theorem test_unknown_FAFF : decode 0xFAFF#16 = .unknown 0xFAFF#16 := by decide

theorem test_decodeTableWord : decodeTableWord 16 0xD015 = some (.draw 0 1 5) := by decide

theorem test_decodeTableWord_unknown : decodeTableWord 16 0x5121 = none := by decide

theorem test_encodeBytes_high_byte_first : encodeBytes (.loadImm 0xA 0x42) = [0x6A#8, 0x42#8] := by decide

/-! ## Reset -/

theorem test_reset_inv_memory : State.reset.mem.wf = true := by decide

/-- R115: glyph A at 0x032; the byte after the font is zero (R38). -/
theorem test_reset_font : (List.map State.reset.mem.read [0x032, 0x033, 0x034, 0x035, 0x036, 0x04F, 0x050, 0x200])
    = [0xF0#8, 0x90#8, 0xF0#8, 0x90#8, 0x90#8, 0x80#8, 0#8, 0#8] := by decide

/-- R113, R114: a cartridge of 3585 bytes is cut at 0xFFF. -/
theorem test_load_truncates : (State.reset.mem.load 0xFFE [1#8, 2#8, 3#8]) = [(0xFFE, 1#8), (0xFFF, 2#8)] := by decide

/-- R112: another font replaces the default one. -/
theorem test_boot_font : (State.boot [0x12#8] [0x34#8]).mem.read 0 = 0x12#8 ∧ (State.boot [0x12#8] [0x34#8]).mem.read 1 = 0#8 ∧
    (State.boot [0x12#8] [0x34#8]).mem.read 0x200 = 0x34#8 := by decide +kernel

/-! ## Memory stays canonical -/

theorem test_write_reset_value_removes_cell : (Memory.write [(0x300, 5#8)] 0x300 0#8) = [] := by decide

theorem test_write_sorts : (Memory.write [(0x300, 5#8)] 0x2FF 7#8) = [(0x2FF, 7#8), (0x300, 5#8)] := by decide

/-! ## Instructions -/

/-- DSP1. -/
theorem test_cls : (after (.clearScreen) (withPixel 0 0 (withPixel 31 63 (withRegs [(15, 0x12)])))).map (fun t => (t.pixel 0 0, t.pixel 31 63, t.reg 15, t.pc)) = some (false, false, 0x12#8, 0x202#16) := by decide

/-- DSP5, W9: the second row wraps to row 0. -/
theorem test_draw_wraps : (after (.draw 0xA 0xB 2) (withBytes 0x300 [0x80, 0x80] ((withRegs [(0xA, 0), (0xB, 31)]).setI 0x300))).map (fun t => (t.pixel 31 0, t.pixel 0 0, t.pixel 31 1, t.reg 15)) = some (true, true, false, 0#8) := by decide

/-- DSP6. -/
theorem test_draw_collides : (after (.draw 0xA 0xB 1) (withPixel 0 0 (withBytes 0x300 [0xC0] ((withRegs [(0xA, 0), (0xB, 0)]).setI 0x300)))).map (fun t => (t.pixel 0 0, t.pixel 0 1, t.reg 15)) = some (false, true, 1#8) := by decide

/-- CTL6. -/
theorem test_ret : (after (.ret) (withStack 0 0x202 1 (State.reset.setPc 0x400))).map (fun t => (t.sp.val, t.pc)) = some (0, 0x202#16) := by decide

/-- CTL7. -/
theorem test_ret_empty : (after (.ret) (State.reset)).map (fun t => (haltOf t, t.pc)) = some (some (.stackUnderflow, 0x200#16), 0x200#16) := by decide

/-- CTL1. -/
theorem test_jump : (after (.jump 0xABC) (State.reset)).map (fun t => t.pc) = some 0xABC#16 := by decide

/-- CTL4: the 16th nesting succeeds. -/
theorem test_call_sixteenth : (after (.call 0x400) (withStack 0 0 15 State.reset)).map (fun t => (t.stack[15], t.sp.val, t.pc)) = some (0x202#16, 16, 0x400#16) := by decide

/-- CTL5. -/
theorem test_call_overflow : (after (.call 0x400) (withStack 0 0 16 State.reset)).map (fun t => (haltOf t, t.sp.val, t.pc)) = some (some (.stackOverflow, 0x200#16), 16, 0x200#16) := by decide

/-- SKP1. -/
theorem test_skipEqImm : (after (.skipEqImm 0xA 0x42) (withRegs [(0xA, 0x42)])).map (fun t => t.pc) = some 0x204#16 := by decide

/-- SKP2. -/
theorem test_skipEqImm_not : (after (.skipEqImm 0xA 0x42) (withRegs [(0xA, 0x43)])).map (fun t => t.pc) = some 0x202#16 := by decide

/-- SKP3. -/
theorem test_skipNeImm : (after (.skipNeImm 0xA 0x42) (withRegs [(0xA, 0x42)])).map (fun t => t.pc) = some 0x202#16 := by decide

/-- SKP6. -/
theorem test_skipEqReg : (after (.skipEqReg 0xA 0xB) (withRegs [(0xA, 3), (0xB, 4)])).map (fun t => t.pc) = some 0x202#16 := by decide

/-- SKP8. -/
theorem test_skipNeReg : (after (.skipNeReg 0xA 0xB) (withRegs [(0xA, 3), (0xB, 4)])).map (fun t => t.pc) = some 0x204#16 := by decide

/-- ALU2: a plain write of VF. -/
theorem test_loadImm : (after (.loadImm 15 1) (withRegs [(15, 0x80)])).map (fun t => (t.reg 15, t.pc)) = some (1#8, 0x202#16) := by decide

/-- ALU4: no carry flag. -/
theorem test_addImm : (after (.addImm 0xA 0xFF) (withRegs [(0xA, 2), (15, 0xAA)])).map (fun t => (t.reg 0xA, t.reg 15)) = some (1#8, 0xAA#8) := by decide

/-- ALU3. -/
theorem test_loadReg : (after (.loadReg 0xA 0xB) (withRegs [(0xA, 1), (0xB, 0x17)])).map (fun t => (t.reg 0xA, t.reg 0xB)) = some (0x17#8, 0x17#8) := by decide

/-- ALU7. -/
theorem test_or : (after (.orReg 0xA 0xB) (withRegs [(0xA, 0xF0), (0xB, 0x0F), (15, 0x55)])).map (fun t => (t.reg 0xA, t.reg 15)) = some (0xFF#8, 0x55#8) := by decide

/-- ALU8. -/
theorem test_and : (after (.andReg 0xA 0xB) (withRegs [(0xA, 0xF0), (0xB, 0x3C), (15, 0x55)])).map (fun t => (t.reg 0xA, t.reg 15)) = some (0x30#8, 0x55#8) := by decide

/-- ALU9. -/
theorem test_xor : (after (.xorReg 0xA 0xB) (withRegs [(0xA, 0xFF), (0xB, 0x0F), (15, 0x55)])).map (fun t => (t.reg 0xA, t.reg 15)) = some (0xF0#8, 0x55#8) := by decide

/-- ALU11: y = 15 adds the old VF. -/
theorem test_addReg_from_vF : (after (.addReg 0xA 15) (withRegs [(0xA, 0xFF), (15, 1)])).map (fun t => (t.reg 0xA, t.reg 15)) = some (0#8, 1#8) := by decide

/-- ALU20: flag_last. -/
theorem test_addReg_to_vF : (after (.addReg 15 0xA) (withRegs [(15, 0xFF), (0xA, 1)])).map (fun t => t.reg 15) = some 1#8 := by decide

/-- W2: 03 - 05. -/
theorem test_sub : (after (.sub 0xA 0xB) (withRegs [(0xA, 3), (0xB, 5)])).map (fun t => (t.reg 0xA, t.reg 15)) = some (0xFE#8, 0#8) := by decide

/-- W2: 07 - 07. -/
theorem test_sub_equal : (after (.sub 0xA 0xB) (withRegs [(0xA, 7), (0xB, 7)])).map (fun t => (t.reg 0xA, t.reg 15)) = some (0#8, 1#8) := by decide

/-- W3. -/
theorem test_shr : (after (.shr 0xA 0xB) (withRegs [(0xA, 5), (0xB, 0xFF)])).map (fun t => (t.reg 0xA, t.reg 15)) = some (2#8, 1#8) := by decide

/-- ALU24. -/
theorem test_shr_result_last : (after (.shr 15 0) ({ withRegs [(15, 2)] with vfPolicy := .resultLast })).map (fun t => t.reg 15) = some 1#8 := by decide

/-- ALU14. -/
theorem test_subn : (after (.subn 0xA 0xB) (withRegs [(0xA, 5), (0xB, 3), (15, 1)])).map (fun t => (t.reg 0xA, t.reg 15)) = some (0xFE#8, 0#8) := by decide

/-- ALU15: strict at equality. -/
theorem test_subn_equal : (after (.subn 0xA 0xB) (withRegs [(0xA, 7), (0xB, 7), (15, 1)])).map (fun t => (t.reg 0xA, t.reg 15)) = some (0#8, 0#8) := by decide

/-- ALU17. -/
theorem test_shl : (after (.shl 0xA 0xB) (withRegs [(0xA, 0x81)])).map (fun t => (t.reg 0xA, t.reg 15)) = some (2#8, 1#8) := by decide

/-- ALU22. -/
theorem test_addReg_fault : (after (.addReg 15 0xA) ({ withRegs [(15, 0xFF), (0xA, 1)] with vfPolicy := .fault })).map (fun t => (haltOf t, t.reg 15)) = some (some (.vfOperandConflict 0x8FA4#16, 0x200#16), 0xFF#8) := by decide

/-- MEM2. -/
theorem test_loadIndex : (after (.loadIndex 0xFFF) (State.reset.setI 5)).map (fun t => t.i) = some 0xFFF#16 := by decide

/-- CTL9: not masked. -/
theorem test_jumpPlusV0 : (after (.jumpPlusV0 0xFFF) (withRegs [(0, 0xFF)])).map (fun t => t.pc) = some 0x10FE#16 := by decide

/-- SKP9. -/
theorem test_skipKeyPressed : (after (.skipKeyPressed 0xA) ((withRegs [(0xA, 3)]).latchKeys (pressed [3]))).map (fun t => t.pc) = some 0x204#16 := by decide

/-- SKP13. -/
theorem test_skipKeyPressed_range : (after (.skipKeyPressed 0xA) (withRegs [(0xA, 0x10)])).map (fun t => haltOf t) = some (some (.keyIndexOutOfRange 0x10#8, 0x200#16)) := by decide

/-- SKP11. -/
theorem test_skipKeyNotPressed : (after (.skipKeyNotPressed 0xA) ((withRegs [(0xA, 3)]).latchKeys (pressed [3]))).map (fun t => t.pc) = some 0x202#16 := by decide

/-- TK1. -/
theorem test_loadDelay : (after (.loadDelay 0xA) (State.reset.setDelayTimer 0x3C)).map (fun t => t.reg 0xA) = some 0x3C#8 := by decide

/-- TK3: the lowest pressed index. -/
theorem test_waitKey : (after (.waitKey 0xA) (State.reset.latchKeys (pressed [5, 3]))).map (fun t => (t.reg 0xA, t.pc)) = some (3#8, 0x202#16) := by decide

/-- TK2. -/
theorem test_waitKey_none : (after (.waitKey 0xA) (withRegs [(0xA, 9)])).map (fun t => (t.reg 0xA, t.pc)) = some (9#8, 0x200#16) := by decide

/-- TK5. -/
theorem test_setDelay : (after (.setDelay 0xA) (withRegs [(0xA, 5)])).map (fun t => (t.delay, t.sound)) = some (5#8, 0#8) := by decide

/-- TK6. -/
theorem test_setSound : (after (.setSound 0xA) (withRegs [(0xA, 0x20)])).map (fun t => (t.delay, t.sound)) = some (0#8, 0x20#8) := by decide

/-- MEM4. -/
theorem test_addIndex : (after (.addIndex 0xA) ((withRegs [(0xA, 2)]).setI 0xFFFF)).map (fun t => (t.i, t.reg 15)) = some (1#16, 0#8) := by decide

/-- MEM8: not masked. -/
theorem test_fontAddr : (after (.fontAddr 0xA) (withRegs [(0xA, 0xFF)])).map (fun t => t.i) = some 0x4FB#16 := by decide

/-- MEM9. -/
theorem test_bcd : (after (.bcd 0xA) ((withRegs [(0xA, 254)]).setI 0x300)).map (fun t => (t.mem, t.i)) = some ([(0x300, 2#8), (0x301, 5#8), (0x302, 4#8)], 0x300#16) := by decide

/-- MEM13: two digits are written, then the halt. -/
theorem test_bcd_range : (after (.bcd 0xA) ((withRegs [(0xA, 123)]).setI 0xFFE)).map (fun t => (t.mem, haltOf t)) = some ([(0xFFE, 1#8), (0xFFF, 2#8)], some (.memoryOutOfRange 0x1000, 0x200#16)) := by decide

/-- MEM14. -/
theorem test_storeRange : (after (.storeRange 3) ((withRegs [(0, 1), (1, 2), (2, 3), (3, 4), (4, 5)]).setI 0x300)).map (fun t => (t.mem, t.i)) = some ([(0x300, 1#8), (0x301, 2#8), (0x302, 3#8), (0x303, 4#8)], 0x300#16) := by decide

/-- MEM20: the font is ordinary memory. -/
theorem test_loadRange : (after (.loadRange 1) (withRegs [(2, 7)])).map (fun t => (t.reg 0, t.reg 1, t.reg 2)) = some (0xF0#8, 0x90#8, 7#8) := by decide

/-- MEM19: V0..V7 are loaded, then the halt. -/
theorem test_loadRange_range : (after (.loadRange 15) (withBytes 0xFF8 [1, 0, 0, 0, 0, 0, 0, 8] (State.reset.setI 0xFF8))).map (fun t => (t.reg 0, t.reg 7, haltOf t)) = some (1#8, 8#8, some (.memoryOutOfRange 0x1000, 0x200#16)) := by decide

/-- ALU26: for every byte drawn. -/
theorem test_rand_zero_mask : (after (.rand 0xA 0) (withRegs [(0xA, 7)])).map (fun t => (t.reg 0xA, t.randDraws)) = some (0#8, 1) := by
  simp [after, exec, execRand, writeReg, complete, withRegs, State.reset]

/-! ## Ticks and steps -/

/-- TCK1. -/
theorem test_tick_idle : (stepped (withTick (pressed []) false ((State.reset.setDelayTimer 2).setSoundTimer 1))).map (fun t => (t.delay, t.sound, t.pc, t.hostTicks)) = some (1#8, 0#8, 0x200#16, []) := by decide

/-- TCK3: the same tick decrements. -/
theorem test_tick_setDelay : (stepped ((withRegs [(0xA, 1)]).withFetchWord 16 0xFA15)).map (fun t => (t.delay, t.pc)) = some (0#8, 0x202#16) := by decide

/-- TCK4. -/
theorem test_tick_loadDelay : (stepped ((State.reset.setDelayTimer 5).withFetchWord 16 0xFA07)).map (fun t => (t.reg 0xA, t.delay)) = some (5#8, 4#8) := by decide

/-- TCK5. -/
theorem test_tick_keys : (stepped (withTick (pressed [3]) true (((withRegs [(0xA, 3)]).placeOpcode 0xEA9E)))).map (fun t => (t.pc, t.keys[3])) = some (0x204#16, true) := by decide

/-- R101: the framebuffer is offered after a tick without a cycle too. -/
theorem test_tick_render : (stepped (withTick (pressed []) false (withPixel 1 2 State.reset))).map (fun t => t.render.map (fun fb => (Framebuffer.read fb 1 2, Framebuffer.read fb 1 3))) = some (some (true, false)) := by decide

/-- R104: a draw is offered whole: the first row of glyph 0. -/
theorem test_tick_render_draw : (stepped (State.reset.withFetchWord 16 0xD015)).map (fun t => t.render.map (fun fb => (Framebuffer.read fb 0 3, Framebuffer.read fb 0 4, Framebuffer.read fb 4 0))) = some (some (true, false, true)) := by decide

/-- R95, R101: a draw that faults after its first row ends the tick before `render <- fb`: nothing is offered. -/
theorem test_tick_render_fault : (stepped ((withBytes 0xFFF [0x80] (State.reset.setI 0xFFF)).withFetchWord 16 0xD012)).map (fun t => (haltOf t, t.pixel 0 0, t.render)) = some (some (.memoryOutOfRange 0x1000, 0x200#16), true, none) := by decide

/-- TCK6: a faulting tick has no decrement. -/
theorem test_tick_fault : (stepped (((withStack 0 0 16 State.reset).setDelayTimer 3).withFetchWord 16 0x2400)).map (fun t => (haltOf t, t.delay)) = some (some (.stackOverflow, 0x200#16), 3#8) := by decide

/-- TCK7: a halted machine has no step. -/
theorem test_tick_halted : (stepped (withTick (pressed []) true (State.reset.halt .stackOverflow (some 0x2400)))).isNone = true := by decide

/-- R50: 0x5121 at 0x300. -/
theorem test_unknown_advances : (stepped ((withRegs [(1, 1), (2, 1)] |>.setPc 0x300).withFetchWord 16 0x5121)).map (fun t => (t.pc, t.reg 1, t.fault)) = some (0x302#16, 1#8, none) := by decide

/-- FET1, second cycle: an odd address. -/
theorem test_fetch_odd : (stepped ((State.reset.setPc 0x203).withFetchWord 16 0x6A42)).map (fun t => (t.reg 0xA, t.pc)) = some (0x42#8, 0x205#16) := by decide

/-- FET2. -/
theorem test_fetch_FFF : (stepped (withTick (pressed []) true (State.reset.setPc 0xFFF))).map (fun t => (haltOf t, t.fault.map (fun d => d.opcode))) = some (some (.memoryOutOfRange 0x1000, 0xFFF#16), some none) := by decide

/-- FET4. -/
theorem test_fetch_10FE : (stepped (withTick (pressed []) true (State.reset.setPc 0x10FE))).map (fun t => haltOf t) = some (some (.memoryOutOfRange 0x10FE, 0x10FE#16)) := by decide

/-! ## Witnesses: states and operands that meet the hypotheses of each statement -/

theorem witness_encodeOfDecode : decode 0x600A#16 = .instr (.loadImm 0 0x0A) := by decide

theorem witness_decoderAgrees_row : ∃ row ∈ opcodeMap, 0x8014#16 &&& row.mask = row.matchBits := by decide

theorem witness_decoderAgrees_noRow : ∀ row ∈ opcodeMap, 0x0000#16 &&& row.mask ≠ row.matchBits := by decide

theorem witness_oneByte_bounds : 4095 < 4096 ∧ 4096 ≤ 4096 := by decide

theorem witness_fetch_last : (State.reset.setPc 0xFFE).pc.toNat ≤ 0xFFE := by decide

theorem witness_fetch_across : (State.reset.setPc 0xFFF).pc.toNat = 0xFFF := by decide

theorem witness_fetch_beyond : 0x1000 ≤ (State.reset.setPc 0x1000).pc.toNat := by decide

theorem witness_canonicalMemory : Memory.wf [(0x300, 5#8)] = true ∧ (∀ a, a < 4096 → Memory.read [(0x300, 5#8)] a = Memory.read [(0x300, 5#8)] a) := ⟨by decide, fun _ _ => rfl⟩

theorem witness_blockLoad_inside : [1#8, 2#8][0]? = some 1#8 ∧ 4095 + 0 < 4096 := by decide

theorem witness_blockLoad_outside : 4094 < 4095 ∨ 4095 + [1#8, 2#8].length ≤ 4094 ∨ 4096 ≤ 4094 := by decide

theorem witness_storedCode : (((State.reset.setPc 0xFFC).setI 0xFFE).pc.toNat + 4 ≤ 4096) ∧ ((State.reset.setPc 0xFFC).setI 0xFFE).dataAddr (1#4).toNat < 4096 ∧
    ((State.reset.setPc 0xFFC).setI 0xFFE).dataAddr 0 = ((State.reset.setPc 0xFFC).setI 0xFFE).pc.toNat + 2 ∧ 0 + 1 ≤ (1#4).toNat := by decide

theorem witness_draw_lastRow : (State.reset.setI 0xFF1).dataAddr (15#4).toNat ≤ 4096 ∨ 15#4 = 0#4 := by decide

theorem witness_draw_noRow : (State.reset.setI 0xFFFF).dataAddr (0#4).toNat ≤ 4096 ∨ 0#4 = 0#4 := by decide

theorem witness_draw_collides : Collides (withPixel 0 0 State.reset) 0 0 1 := ⟨0, 0, by decide, 0, 0, by decide⟩

theorem witness_draw_noCollision : ¬ Collides State.reset 0 0 5 := by
  rintro ⟨r, c, h, -⟩
  simp [State.pixel, Framebuffer.read, State.reset] at h

theorem witness_drawHalts : 2#4 ≠ 0#4 ∧ 4096 < (State.reset.setI 0xFFF).dataAddr (2#4).toNat := by decide

theorem witness_doubleDraw : ∃ t u : State, State.reset.dataAddr (1#4).toNat ≤ 4096 ∧ exec (.draw 0 1 1) State.reset = .next t ∧ t.reg 0 = State.reset.reg 0 ∧
    t.reg 1 = State.reset.reg 1 ∧ exec (.draw 0 1 1) t = .next u := ⟨_, _, by decide, rfl, by decide, by decide, rfl⟩

theorem witness_call_room : (withStack 0 0 15 State.reset).sp.val < 16 := by decide

theorem witness_call_full : (withStack 0 0 16 State.reset).sp.val = 16 := by decide

theorem witness_return_entry : 0 < (withStack 0 0x202 1 State.reset).sp.val := by decide

theorem witness_return_empty : State.reset.sp.val = 0 := by decide

theorem witness_returnUndoesCall : ∃ t u : State, (withStack 0 0 15 State.reset).sp.val < 16 ∧ exec (.call 0x400) (withStack 0 0 15 State.reset) = .next t ∧ u.stack = t.stack ∧
    u.sp = t.sp := ⟨_, _, by decide, rfl, rfl, rfl⟩

theorem witness_skip_holds : State.reset.reg 0 = 0#8 ∧ ¬ State.reset.reg 0 ≠ 0#8 ∧ State.reset.reg 0 = State.reset.reg 1 := by decide

theorem witness_skip_fails : ¬ State.reset.reg 0 = 1#8 ∧ State.reset.reg 0 ≠ 1#8 ∧ ¬ (withRegs [(1, 1)]).reg 0 = (withRegs [(1, 1)]).reg 1 := by decide

theorem witness_keySkip_last : ((withRegs [(0, 15)]).reg 0).toNat < 16 ∧ (withRegs [(0, 15)]).keys[((withRegs [(0, 15)]).reg 0).toNat]? = some false := by decide

theorem witness_keySkip_pressed : ((withRegs [(0, 15)]).latchKeys (pressed [15])).keys[((withRegs [(0, 15)]).reg 0).toNat]? = some true := by decide

theorem witness_keySkip_range : 16 ≤ ((withRegs [(0, 16)]).reg 0).toNat := by decide

theorem witness_flag_other : (0#4 ≠ vF) ∧ (14#4 ≠ vF) := by decide

theorem witness_flag_last : 15#4 = vF ∧ State.reset.vfPolicy = .flagLast := by decide

theorem witness_flag_resultLast : 15#4 = vF ∧ ({ State.reset with vfPolicy := .resultLast } : State).vfPolicy = .resultLast := by decide

theorem witness_flag_fault : 15#4 = vF ∧ ({ State.reset with vfPolicy := .fault } : State).vfPolicy = .fault := by decide

theorem witness_bcd_last : (State.reset.setI 0xFFD).dataAddr 2 < 4096 := by decide

theorem witness_bcd_range : 4096 ≤ (State.reset.setI 0xFFE).dataAddr 2 := by decide

theorem witness_range_last : (State.reset.setI 0xFF0).dataAddr (15#4).toNat < 4096 := by decide

theorem witness_range_outside : 4096 ≤ (State.reset.setI 0xFF1).dataAddr (15#4).toNat := by decide

theorem witness_range_upTo : (2#4).toNat ≤ (2#4).toNat ∧ (2#4).toNat < (3#4).toNat := by decide

theorem witness_loadUndoesStore : ∃ t u : State, (State.reset.setI 0xFF0).dataAddr (15#4).toNat < 4096 ∧ exec (.storeRange 15) (State.reset.setI 0xFF0) = .next t ∧ u.i = t.i ∧
    ∀ a, u.mem.read a = t.mem.read a := ⟨_, _, by decide, rfl, rfl, fun _ => rfl⟩

theorem witness_waitKey_pressed : (State.reset.latchKeys (pressed [3, 5])).keys[(3 : Fin 16)] = true ∧
    ∀ j : Fin 16, j < 3 → (State.reset.latchKeys (pressed [3, 5])).keys[j] = false := by decide

theorem witness_waitKey_none : ∀ k : Fin 16, State.reset.keys[k] = false := by decide

theorem witness_timer_running : 0 < (State.reset.setDelayTimer 1).delay.toNat ∧ 0 < (State.reset.setSoundTimer 255).sound.toNat := by decide

theorem witness_timer_stopped : State.reset.delay.toNat = 0 ∧ State.reset.sound.toNat = 0 := by decide

theorem witness_stepRuns : (State.reset.withFetchWord 16 0x600A).halted = false ∧ (State.reset.withFetchWord 16 0x600A).nextTick.run = true ∧ (State.reset.withFetchWord 16 0x600A).pc.toNat ≤ 0xFFE ∧
    decode (opOfBytes ((State.reset.withFetchWord 16 0x600A).mem.read (State.reset.withFetchWord 16 0x600A).pc.toNat) ((State.reset.withFetchWord 16 0x600A).mem.read ((State.reset.withFetchWord 16 0x600A).pc.toNat + 1))) = .instr (.loadImm 0 0x0A) := by decide

theorem witness_placedWord : State.reset.halted = false ∧ (State.reset.setPc 0xFFE).pc.toNat ≤ 0xFFE ∧ 0x600A < 65536 ∧ decodeTableWord 16 0x600A = some (.loadImm 0 0x0A) := by decide

theorem witness_unknownOpcode : (withTick (pressed []) true State.reset).halted = false ∧ (withTick (pressed []) true State.reset).nextTick.run = true ∧ (withTick (pressed []) true State.reset).fetch.toOption = some 0#16 ∧ decode 0#16 = .unknown 0#16 := by decide

theorem witness_fetchFault : (withTick (pressed []) true (State.reset.setPc 0xFFF)).halted = false ∧ (withTick (pressed []) true (State.reset.setPc 0xFFF)).nextTick.run = true ∧ 0xFFF ≤ (withTick (pressed []) true (State.reset.setPc 0xFFF)).pc.toNat := by decide

theorem witness_idleTick : (withTick (pressed []) false State.reset).halted = false ∧ (withTick (pressed []) false State.reset).nextTick.run = false := by decide

theorem witness_haltedMachine : (State.reset.halt .stackUnderflow none).halted = true ∧ State.reset.halted = false := by decide

/-- A run for DelayCountsDown: `set-delay` with 2, then an idle tick. -/
def countdown : State := { (withRegs [(0, 2)]).withFetchWord 16 0xF015 with
  hostTicks := [{ snapshot := pressed [], run := true }, { snapshot := pressed [], run := false }] }

/-- The states after its ticks. -/
def countdownRun (k : Nat) : State := (fun s => (stepped s).getD s)^[k + 1] countdown

theorem witness_delayCountsDown : countdown.halted = false ∧ countdown.nextTick.run = true ∧ countdown.fetch.toOption = some 0xF015#16 ∧
    decode 0xF015#16 = .instr (.setDelay 0) ∧ 0 < (countdown.reg 0).toNat ∧ stepped countdown = some (countdownRun 0) ∧
    stepped (countdownRun 0) = some (countdownRun 1) ∧ (countdownRun 1).halted = false ∧ (countdownRun 0).nextTick.run = false ∧
    1 ≤ 2 ∧ 2 ≤ 1 + 1 := by decide +kernel

theorem witness_boot_cartridge : 0x200 < 4096 ∧ 0x200 ≤ 0x200 ∧ 0x200 - 0x200 < [1#8].length ∧ ¬ (0x201 - 0x200 < [1#8].length) := by decide

theorem witness_stepKeepsInvariant : State.Inv (withTick (pressed []) false State.reset) ∧ ∃ t, step (withTick (pressed []) false State.reset) = .next t := ⟨⟨by decide, by decide, by decide, by decide⟩, _, rfl⟩

theorem witness_fault_underflow : State.reset.halted = false ∧ ∃ t, exec .ret State.reset = .next t ∧ t.halted = true := ⟨by decide, _, rfl, by decide⟩

theorem witness_fault_overflow : ∃ t, exec (.call 0) (withStack 0 0 16 State.reset) = .next t ∧ t.halted = true := ⟨_, rfl, by decide⟩

theorem witness_fault_memory : ∃ t, exec (.bcd 0) (State.reset.setI 0xFFE) = .next t ∧ t.halted = true := ⟨_, rfl, by decide⟩

theorem witness_fault_key : ∃ t, exec (.skipKeyPressed 0) (withRegs [(0, 16)]) = .next t ∧ t.halted = true := ⟨_, rfl, by decide⟩

theorem witness_fault_policy : ∃ t, exec (.sub 15 0) { State.reset with vfPolicy := .fault } = .next t ∧ t.halted = true := ⟨_, rfl, by decide⟩

theorem witness_pcMoves : ∃ t, State.reset.halted = false ∧ exec (.skipEqImm 0 0) State.reset = .next t ∧ t.halted = false := ⟨_, by decide, rfl, by decide⟩

theorem witness_onlyNamedWrite : (∃ t, exec (.loadImm 0 1) State.reset = .next t ∧ t.halted = false) ∧
    (∀ nnn x, Instr.loadImm 0 1 ≠ .loadIndex nnn ∧ Instr.loadImm 0 1 ≠ .addIndex x ∧ Instr.loadImm 0 1 ≠ .fontAddr x) ∧
    (∀ nnn, Instr.loadImm 0 1 ≠ .ret ∧ Instr.loadImm 0 1 ≠ .call nnn) ∧ (∀ x, Instr.loadImm 0 1 ≠ .setDelay x) ∧
    (∀ x, Instr.loadImm 0 1 ≠ .setSound x) ∧ (∀ x y n, Instr.loadImm 0 1 ≠ .clearScreen ∧ Instr.loadImm 0 1 ≠ .draw x y n) ∧
    (∀ x, Instr.loadImm 0 1 ≠ .bcd x ∧ Instr.loadImm 0 1 ≠ .storeRange x) := ⟨⟨_, rfl, by decide⟩, by simp⟩

theorem witness_onlyNamedWriteVF : ∃ t, exec (.addReg 0 1) State.reset = .next t ∧ t.halted = false ∧ (Instr.addReg 0 1).wellFormed = true := ⟨_, rfl, by decide, by decide⟩

theorem witness_stepLatches : ∃ t, step (withTick (pressed []) false State.reset) = .next t ∧ t.halted = false := ⟨_, rfl, by decide⟩

theorem witness_runStops_halt : ∃ t, runTicks [{ snapshot := pressed [], run := true }] (State.reset.setPc 0xFFF) = .next t ∧ t.halted = true := ⟨_, rfl, by decide⟩

theorem witness_runStops_prefix : ∃ t, runTicks ([{ snapshot := pressed [], run := false }] ++ [{ snapshot := pressed [1], run := false }]) State.reset = .next t := ⟨_, rfl⟩

theorem witness_stepOffers : ∃ t, step (withTick (pressed []) false State.reset) = .next t ∧ t.halted = false := ⟨_, rfl, by decide⟩

theorem witness_stepDecrements_idle : (∃ t, step (withTick (pressed []) false State.reset) = .next t ∧ t.halted = false) ∧ (withTick (pressed []) false State.reset).nextTick.run = false := ⟨⟨_, rfl, by decide⟩, by decide⟩

theorem witness_stepDecrements_setDelay : (stepped ((withRegs [(0, 2)]).withFetchWord 16 0xF015)).map (fun t => t.halted) = some false ∧ ((withRegs [(0, 2)]).withFetchWord 16 0xF015).nextTick.run = true ∧ ((withRegs [(0, 2)]).withFetchWord 16 0xF015).fetch.toOption = some 0xF015#16 ∧
    decode 0xF015#16 = .instr (.setDelay 0) := by decide

theorem witness_stepDecrements_setSound : (stepped ((withRegs [(0, 2)]).withFetchWord 16 0xF018)).map (fun t => t.halted) = some false ∧ ((withRegs [(0, 2)]).withFetchWord 16 0xF018).nextTick.run = true ∧ ((withRegs [(0, 2)]).withFetchWord 16 0xF018).fetch.toOption = some 0xF018#16 ∧
    decode 0xF018#16 = .instr (.setSound 0) := by decide

end Sys2Proof.Tests
end

section
/-! Access to one byte of memory (20_memory.md R32, R33): the statements on `MemRead(a, 1)` and `MemWrite(a, 1, v)`. -/

namespace Sys2Proof.Machine

/-- Replacing the memory leaves every other piece of the state alone. -/
theorem State.frame_setMem (s : State) (m : Memory) : Frame [.mem] s (s.setMem m) := by
  intro p hp
  cases p with
  | mem => exact absurd List.mem_cons_self hp
  | _ => simp [Part.same]

/-- Settles O6, by the law of `memRead` on each side of 4096. -/
theorem oneByteReads : Obligations.OneByteReads := fun s _ => ⟨s.memRead_of_lt, s.memRead_of_ge⟩

/-- Settles O7: below 4096 the write replaces the memory by one that `Memory.read_write` describes address by address, and from
4096 on it raises with the state as it was. -/
theorem oneByteWrites : Obligations.OneByteWrites := by
  intro s a v
  constructor
  · intro ha
    refine ⟨s.setMem (s.mem.write a v), s.memWrite_of_lt ha v, ?_, ?_, s.frame_setMem _⟩
    · simp [Memory.read_write]
    · intro a' hne
      simp [Memory.read_write, hne]
  · exact fun ha => s.memWrite_of_ge ha v

end Sys2Proof.Machine
end

section
/-! Control transfer (41_control_flow.md): the statements on the instructions whose outcome is `Jump`. -/

namespace Sys2Proof.Machine

/-- Applying a program-counter outcome writes `PC` alone (10_state.md R19). -/
theorem State.frame_applyPc (s : State) (out : PcOutcome) : Frame [.pc] s (s.applyPc out) := by
  intro p hp
  cases p with
  | pc => exact absurd List.mem_cons_self hp
  | _ => simp [Part.same]

/-- `Jump(a)` reaches `a` itself, with no reduction, when `a` fits in the 16 bits of `PC`. -/
theorem State.applyPc_jump_pc_toNat (s : State) {a : Nat} (ha : a < 65536) : (s.applyPc (.jump a)).pc.toNat = a := by
  rw [State.applyPc_jump_pc, BitVec.toNat_ofNat, Nat.mod_eq_of_lt ha]

/-- The arm of `jump`: the one outcome is `Jump(NNN)`. -/
theorem exec_jump (nnn : Addr12) (s : State) : exec (.jump nnn) s = .next (s.applyPc (.jump nnn.toNat)) := rfl

/-- Settles O16: the next state is `s` with the outcome `Jump(NNN)` applied, and a 12-bit target fits in `PC`. -/
theorem jumpSetsPc : Obligations.JumpSetsPc := by
  intro nnn s
  have hnnn : nnn.toNat < 65536 := by omega
  exact ⟨_, exec_jump nnn s, s.applyPc_jump_pc_toNat hnnn, s.frame_applyPc _⟩

end Sys2Proof.Machine
end

section
/-! Conditional skips (42_skip.md): the statements on the instructions whose outcome is `Advance(2)` or `Advance(1)`. -/

namespace Sys2Proof.Machine

/-- An arm that ends in `skipIf` meets the shape of R62, where the computed test `c` decides the condition. -/
theorem skipsWhen_of_exec_eq_skipIf {i : Instr} {s : State} {c : Bool} {condition : Prop}
    (hexec : exec i s = skipIf c s) (hc : c = true ↔ condition) : SkipsWhen i condition s := by
  refine ⟨_, hexec.trans (skipIf_eq c s), ?_, ?_, s.frame_applyPc _⟩
  · intro h
    rw [if_pos (hc.mpr h), State.advance_pc]
  · intro h
    rw [if_neg (mt hc.mp h), State.advance_pc]

/-- Settles O21: each arm is `skipIf` of its own comparison, and the Boolean comparison holds exactly when the stated one does. -/
theorem registerSkips : Obligations.RegisterSkips := by
  intro x y nn s
  refine ⟨?skipEqImm, ?skipNeImm, ?skipEqReg, ?skipNeReg⟩
  case skipEqImm => exact skipsWhen_of_exec_eq_skipIf (c := s.reg x == nn) rfl beq_iff_eq
  case skipNeImm => exact skipsWhen_of_exec_eq_skipIf (c := s.reg x != nn) rfl bne_iff_ne
  case skipEqReg => exact skipsWhen_of_exec_eq_skipIf (c := s.reg x == s.reg y) rfl beq_iff_eq
  case skipNeReg => exact skipsWhen_of_exec_eq_skipIf (c := s.reg x != s.reg y) rfl bne_iff_ne

end Sys2Proof.Machine
end

section
/-! Loads and add-imm (43_alu.md): the statements on the instructions that end in `writeReg`, an ordinary result and no flag. -/

namespace Sys2Proof.Machine

/-- Writing a register and then applying a program-counter outcome leaves every piece but the registers and `PC` alone. -/
theorem State.frame_setReg_applyPc (s : State) (x : Nibble) (b : Byte) (out : PcOutcome) :
    Frame [.v, .pc] s ((s.setReg x b).applyPc out) := by
  intro p hp
  cases p with
  | v | pc => simp at hp
  | _ => simp [Part.same]

/-- An arm that ends in `writeReg` meets the shape of an ordinary result: `Vx` reads the byte written, for every `x`, and the
outcome is `Advance(1)`. -/
theorem writesOneReg_of_exec_eq_writeReg {i : Instr} {x : Nibble} {b : Byte} {s : State}
    (hexec : exec i s = writeReg x b s) : WritesOneReg i x b s := by
  refine ⟨_, hexec.trans (complete_eq (.advance 1) (s.setReg x b)), ?written, ?others, ?pc,
    s.frame_setReg_applyPc x b (.advance 1)⟩
  case written => rw [State.reg_applyPc, State.reg_setReg, if_pos rfl]
  case others =>
    intro y hy
    rw [State.reg_applyPc, State.reg_setReg, if_neg hy]
  case pc => rw [State.advance_pc, State.setReg_pc]

/-- The arm of `add-imm`: the byte written is the sum in 8 bits (R69, R73). -/
theorem exec_addImm (x : Nibble) (nn : Byte) (s : State) : exec (.addImm x nn) s = writeReg x (s.reg x + nn) s :=
  congrArg (writeReg x · s) (addResult_eq (s.reg x) nn)

/-- Settles O23: both arms are `writeReg` of the byte loaded, `NN` or the value `Vy` had at the start. -/
theorem loadsWriteTheRegister : Obligations.LoadsWriteTheRegister := by
  intro x y nn s
  constructor
  · exact writesOneReg_of_exec_eq_writeReg rfl
  · exact writesOneReg_of_exec_eq_writeReg rfl

/-- Settles O24: the arm is `writeReg` of the wrapped sum, and `writeReg` writes no register but its destination. -/
theorem addImmWraps : Obligations.AddImmWraps := fun x nn s =>
  writesOneReg_of_exec_eq_writeReg (exec_addImm x nn s)

end Sys2Proof.Machine
end

section
/-! Timer transfers (45_timers_keys.md R90, R92, R93): the statements on the instructions that move a byte between `Vx` and a timer. -/

namespace Sys2Proof.Machine

/-- A piece kept by each of two successive changes is kept by both. -/
theorem Part.same_trans {p : Part} {s t u : State} (hst : p.same s t) (htu : p.same t u) : p.same s u := by
  cases p with
  | v | mem => exact fun a => (htu a).trans (hst a)
  | stack | halt | ticks => exact ⟨htu.1.trans hst.1, htu.2.trans hst.2⟩
  | _ => exact Eq.trans htu hst

/-- Two successive changes write at most the pieces that either of them writes. -/
theorem Frame.trans {ps qs : List Part} {s t u : State} (hst : Frame ps s t) (htu : Frame qs t u) :
    Frame (ps ++ qs) s u := by
  intro p hp
  have hps : p ∉ ps := mt (List.mem_append_left qs) hp
  have hqs : p ∉ qs := mt (List.mem_append_right ps) hp
  exact Part.same_trans (hst p hps) (htu p hqs)

/-- Writing the delay timer leaves every other piece of the state alone. -/
theorem State.frame_setDelayTimer (s : State) (b : Byte) : Frame [.delay] s (s.setDelayTimer b) := by
  intro p hp
  cases p with
  | delay => exact absurd List.mem_cons_self hp
  | _ => simp [Part.same]

/-- Writing the sound timer leaves every other piece of the state alone. -/
theorem State.frame_setSoundTimer (s : State) (b : Byte) : Frame [.sound] s (s.setSoundTimer b) := by
  intro p hp
  cases p with
  | sound => exact absurd List.mem_cons_self hp
  | _ => simp [Part.same]

/-- The arm of `set-delay`: the delay timer takes `Vx`, then `Advance(1)`. -/
theorem exec_setDelay (x : Nibble) (s : State) :
    exec (.setDelay x) s = .next ((s.setDelayTimer (s.reg x)).applyPc (.advance 1)) := rfl

/-- The arm of `set-sound`: the sound timer takes `Vx`, then `Advance(1)`. -/
theorem exec_setSound (x : Nibble) (s : State) :
    exec (.setSound x) s = .next ((s.setSoundTimer (s.reg x)).applyPc (.advance 1)) := rfl

/-- Settles O37: `load-delay` is `writeReg` of the delay timer; the other two write one timer and then `PC`, and the frames of
these two changes compose. -/
theorem timerTransfers : Obligations.TimerTransfers := by
  intro x s
  refine ⟨?loadDelay, ?setDelay, ?setSound⟩
  case loadDelay => exact writesOneReg_of_exec_eq_writeReg rfl
  case setDelay =>
    refine ⟨_, exec_setDelay x s, ?_, ?_, (s.frame_setDelayTimer _).trans (State.frame_applyPc _ _)⟩
    · rw [State.applyPc_delay, State.setDelayTimer_delay]
    · rw [State.advance_pc, State.setDelayTimer_pc]
  case setSound =>
    refine ⟨_, exec_setSound x s, ?_, ?_, (s.frame_setSoundTimer _).trans (State.frame_applyPc _ _)⟩
    · rw [State.applyPc_sound, State.setSoundTimer_sound]
    · rw [State.advance_pc, State.setSoundTimer_pc]

end Sys2Proof.Machine
end

section
/-! The decoder, the encoder and the opcode map (30_encoding.md R46 to R51): each agrees with the other two. -/

namespace Sys2Proof

/-- An opcode selects a row when each of its nibbles, masked, is the row's (R49). -/
theorem ofNibbles_and_eq_iff (a b c d : Nibble) (mask matchBits : Word) :
    ofNibbles a b c d &&& mask = matchBits ↔
      a &&& opN1 mask = opN1 matchBits ∧ b &&& opX mask = opX matchBits ∧
      c &&& opY mask = opY matchBits ∧ d &&& opN mask = opN matchBits := by
  rw [← ofNibbles_inj, ← ofNibbles_and, ofNibbles_fields, ofNibbles_fields]

theorem decode_eq_instr_iff {op : Word} {i : Instr} :
    decode op = .instr i ↔ decodeNibbles (opN1 op) (opX op) (opY op) (opN op) = some i := by
  cases h : decodeNibbles (opN1 op) (opX op) (opY op) (opN op) <;> simp [decode, h]

theorem decode_eq_unknown_iff {op : Word} :
    decode op = .unknown op ↔ decodeNibbles (opN1 op) (opX op) (opY op) (opN op) = none := by
  cases h : decodeNibbles (opN1 op) (opX op) (opY op) (opN op) <;> simp [decode, h]

/-- An opcode that a row of R49 selects decodes to what the row reads: the row fixes the nibbles that its mask keeps, and the
decoder, run on these, takes the branch of the row. -/
theorem decode_of_row_mem {row : OpcodeRow} (hrow : row ∈ opcodeMap) {op : Word}
    (h : op &&& row.mask = row.matchBits) : decode op = .instr (row.read op) := by
  obtain ⟨a, b, c, d, rfl⟩ : ∃ a b c d, op = ofNibbles a b c d := ⟨_, _, _, _, (ofNibbles_fields op).symm⟩
  rw [decode_eq_instr_iff]
  rw [ofNibbles_and_eq_iff] at h
  simp only [opN1_ofNibbles, opX_ofNibbles, opY_ofNibbles, opN_ofNibbles]
  obtain ⟨ha, hb, hc, hd⟩ := h
  revert hd hc hb ha row
  simp only [opcodeMap, List.cons_append, List.nil_append, List.forall_mem_cons, List.not_mem_nil, false_implies, implies_true,
    and_true, opX_ofNibbles, opY_ofNibbles, opN_ofNibbles, opImm_ofNibbles, opAddr_ofNibbles]
  simp +contextual [opN1, opX, opY, opN, Laws.RowMatch.keep, decodeNibbles, decode0, decode8, decodeE, decodeF, immOf]

/-- Every instruction's opcode selects a row that reads it back (R49). -/
theorem rowMatch (i : Instr) : Laws.RowMatch.Statement i := by
  cases i with
  | clearScreen => exact Laws.RowMatch.clearScreen
  | ret => exact Laws.RowMatch.ret
  | jump nnn => exact Laws.RowMatch.jump nnn
  | call nnn => exact Laws.RowMatch.call nnn
  | skipEqImm x nn => exact Laws.RowMatch.skipEqImm x nn
  | skipNeImm x nn => exact Laws.RowMatch.skipNeImm x nn
  | skipEqReg x y => exact Laws.RowMatch.skipEqReg x y
  | loadImm x nn => exact Laws.RowMatch.loadImm x nn
  | addImm x nn => exact Laws.RowMatch.addImm x nn
  | loadReg x y => exact Laws.RowMatch.loadReg x y
  | orReg x y => exact Laws.RowMatch.orReg x y
  | andReg x y => exact Laws.RowMatch.andReg x y
  | xorReg x y => exact Laws.RowMatch.xorReg x y
  | addReg x y => exact Laws.RowMatch.addReg x y
  | sub x y => exact Laws.RowMatch.sub x y
  | shr x y => exact Laws.RowMatch.shr x y
  | subn x y => exact Laws.RowMatch.subn x y
  | shl x y => exact Laws.RowMatch.shl x y
  | skipNeReg x y => exact Laws.RowMatch.skipNeReg x y
  | loadIndex nnn => exact Laws.RowMatch.loadIndex nnn
  | jumpPlusV0 nnn => exact Laws.RowMatch.jumpPlusV0 nnn
  | rand x nn => exact Laws.RowMatch.rand x nn
  | draw x y n => exact Laws.RowMatch.draw x y n
  | skipKeyPressed x => exact Laws.RowMatch.skipKeyPressed x
  | skipKeyNotPressed x => exact Laws.RowMatch.skipKeyNotPressed x
  | loadDelay x => exact Laws.RowMatch.loadDelay x
  | waitKey x => exact Laws.RowMatch.waitKey x
  | setDelay x => exact Laws.RowMatch.setDelay x
  | setSound x => exact Laws.RowMatch.setSound x
  | addIndex x => exact Laws.RowMatch.addIndex x
  | fontAddr x => exact Laws.RowMatch.fontAddr x
  | bcd x => exact Laws.RowMatch.bcd x
  | storeRange x => exact Laws.RowMatch.storeRange x
  | loadRange x => exact Laws.RowMatch.loadRange x

/-- Settles O1: the opcode of `i` selects a row that reads `i` back, and the decoder agrees with that row. -/
theorem decodeOfEncode : Obligations.DecodeOfEncode := by
  intro i
  obtain ⟨row, hrow, hmatch, hread⟩ := rowMatch i
  rw [decode_of_row_mem hrow hmatch, hread]

theorem encode_of_decode0 {b c d : Nibble} {i : Instr} (h : decode0 b c d = some i) :
    encode i = ofNibbles 0x0#4 b c d := by
  unfold decode0 at h
  split_ifs at h with hcls hret
  · obtain ⟨rfl, rfl, rfl⟩ := hcls
    cases h; rfl
  · obtain ⟨rfl, rfl, rfl⟩ := hret
    cases h; rfl

theorem encode_of_decode8 {b c d : Nibble} {i : Instr} (h : decode8 b c d = some i) :
    encode i = ofNibbles 0x8#4 b c d := by
  unfold decode8 at h
  split_ifs at h <;> (subst d; cases h; rfl)

theorem encode_of_decodeE {x : Nibble} {nn : Byte} {i : Instr} (h : decodeE x nn = some i) :
    encode i = encodeFXK 0xE#4 x nn := by
  unfold decodeE at h
  split_ifs at h <;> (subst nn; cases h; rfl)

theorem encode_of_decodeF {x : Nibble} {nn : Byte} {i : Instr} (h : decodeF x nn = some i) :
    encode i = encodeFXK 0xF#4 x nn := by
  unfold decodeF at h
  split_ifs at h <;> (subst nn; cases h; rfl)

theorem encodeFA_addrOf (a b c d : Nibble) : encodeFA a (addrOf b c d) = ofNibbles a b c d := by simp [encodeFA]

theorem encodeFXK_immOf (a b c d : Nibble) : encodeFXK a b (immOf c d) = ofNibbles a b c d := by simp [encodeFXK]

/-- The cases of a nibble, by its hexadecimal digit. -/
theorem nibble_cases {P : Nibble → Prop} (n0 : P 0x0#4) (n1 : P 0x1#4) (n2 : P 0x2#4) (n3 : P 0x3#4) (n4 : P 0x4#4)
    (n5 : P 0x5#4) (n6 : P 0x6#4) (n7 : P 0x7#4) (n8 : P 0x8#4) (n9 : P 0x9#4) (nA : P 0xA#4) (nB : P 0xB#4) (nC : P 0xC#4)
    (nD : P 0xD#4) (nE : P 0xE#4) (nF : P 0xF#4) (a : Nibble) : P a := by
  have listed : ∀ a : Nibble, a ∈ (List.range 16).map (BitVec.ofNat 4) := by decide
  refine List.forall_iff_forall_mem.1 ?_ a (listed a)
  exact ⟨n0, n1, n2, n3, n4, n5, n6, n7, n8, n9, nA, nB, nC, nD, nE, nF⟩

/-! The first nibbles that leave the row open (R49). -/

theorem decodeNibbles_0 (b c d : Nibble) : decodeNibbles 0x0#4 b c d = decode0 b c d := rfl
theorem decodeNibbles_5 (b c d : Nibble) :
    decodeNibbles 0x5#4 b c d = if d = 0x0#4 then some (.skipEqReg b c) else none := rfl
theorem decodeNibbles_8 (b c d : Nibble) : decodeNibbles 0x8#4 b c d = decode8 b c d := rfl
theorem decodeNibbles_9 (b c d : Nibble) :
    decodeNibbles 0x9#4 b c d = if d = 0x0#4 then some (.skipNeReg b c) else none := rfl
theorem decodeNibbles_E (b c d : Nibble) : decodeNibbles 0xE#4 b c d = decodeE b (immOf c d) := rfl
theorem decodeNibbles_F (b c d : Nibble) : decodeNibbles 0xF#4 b c d = decodeF b (immOf c d) := rfl

theorem encode_of_decodeNibbles {a b c d : Nibble} {i : Instr} (h : decodeNibbles a b c d = some i) :
    encode i = ofNibbles a b c d := by
  induction a using nibble_cases with
  | n0 => exact encode_of_decode0 h
  | n8 => exact encode_of_decode8 h
  | nE => exact (encode_of_decodeE h).trans (encodeFXK_immOf ..)
  | nF => exact (encode_of_decodeF h).trans (encodeFXK_immOf ..)
  | n1 | n2 | nA | nB => cases h; exact encodeFA_addrOf ..
  | n3 | n4 | n6 | n7 | nC => cases h; exact encodeFXK_immOf ..
  | nD => cases h; rfl
  | n5 =>
    obtain ⟨rfl, hi⟩ := Option.ite_none_right_eq_some.1 ((decodeNibbles_5 b c d).symm.trans h)
    cases hi; rfl
  | n9 =>
    obtain ⟨rfl, hi⟩ := Option.ite_none_right_eq_some.1 ((decodeNibbles_9 b c d).symm.trans h)
    cases hi; rfl

/-- Settles O2: each branch of the decoder answers the instruction whose pattern it has matched. -/
theorem encodeOfDecode : Obligations.EncodeOfDecode := by
  intro op i h
  rw [encode_of_decodeNibbles (decode_eq_instr_iff.1 h), ofNibbles_fields]

/-- Two rows that disagree on a bit which both masks keep select no opcode together. -/
theorem not_both_rows {r r' : OpcodeRow} (h : r.matchBits &&& r'.mask ≠ r'.matchBits &&& r.mask) (op : Word) :
    ¬ (op &&& r.mask = r.matchBits ∧ op &&& r'.mask = r'.matchBits) := by
  rintro ⟨hr, hr'⟩
  apply h
  rw [← hr, ← hr', BitVec.and_assoc, BitVec.and_assoc, BitVec.and_comm r.mask]

/-- Settles O3: a selected row is what the decoder reads; where the decoder reads an instruction, the row of that instruction
selects the opcode; and any two rows disagree on a bit that both masks keep. -/
theorem decoderAgreesWithOpcodeMap : Obligations.DecoderAgreesWithOpcodeMap := by
  refine ⟨fun _ hrow _ => decode_of_row_mem hrow, ?unknown, ?disjoint⟩
  case unknown =>
    intro op hnone
    rw [decode_eq_unknown_iff, Option.eq_none_iff_forall_ne_some]
    intro i hi
    obtain ⟨row, hrow, hmatch, -⟩ := rowMatch i
    rw [encodeOfDecode op i (decode_eq_instr_iff.2 hi)] at hmatch
    exact hnone row hrow hmatch
  case disjoint =>
    have hapart : opcodeMap.Pairwise fun r r' => r.matchBits &&& r'.mask ≠ r'.matchBits &&& r.mask := by decide
    exact hapart.imp not_both_rows

/-! Where each selection by `n` or by `nn` finds no row (R51). -/

theorem ite_some_eq_none_iff {α : Type} {p : Prop} [Decidable p] {a : α} {o : Option α} :
    (if p then some a else o) = none ↔ ¬ p ∧ o = none := by
  by_cases hp : p <;> simp [hp]

theorem decode0_eq_none_iff (b c d : Nibble) :
    decode0 b c d = none ↔ ofNibbles 0x0#4 b c d ≠ 0x00E0#16 ∧ ofNibbles 0x0#4 b c d ≠ 0x00EE#16 := by
  have hcls : (0x00E0#16 : Word) = ofNibbles 0x0#4 0x0#4 0xE#4 0x0#4 := rfl
  have hret : (0x00EE#16 : Word) = ofNibbles 0x0#4 0x0#4 0xE#4 0xE#4 := rfl
  rw [hcls, hret, Ne, Ne, ofNibbles_inj, ofNibbles_inj]
  simp [decode0, ite_some_eq_none_iff]

theorem decode8_eq_none_iff (b c d : Nibble) :
    decode8 b c d = none ↔ d ∈ [0x8#4, 0x9#4, 0xA#4, 0xB#4, 0xC#4, 0xD#4, 0xF#4] := by
  induction d using nibble_cases <;> simp [decode8]

theorem decodeE_eq_none_iff (x : Nibble) (nn : Byte) : decodeE x nn = none ↔ nn ∉ [0x9E#8, 0xA1#8] := by
  simp [decodeE, ite_some_eq_none_iff]

theorem decodeF_eq_none_iff (x : Nibble) (nn : Byte) :
    decodeF x nn = none ↔ nn ∉ [0x07#8, 0x0A#8, 0x15#8, 0x18#8, 0x1E#8, 0x29#8, 0x33#8, 0x55#8, 0x65#8] := by
  simp [decodeF, ite_some_eq_none_iff]

/-- Settles O4: by the first nibble. Ten of its values always select a row, and the other six do so as `decode0`, `decode8`,
`decodeE`, `decodeF` and the two checks of `n` say. -/
theorem unknownOpcodesAreThoseListed : Obligations.UnknownOpcodesAreThoseListed := by
  intro op
  obtain ⟨a, b, c, d, rfl⟩ : ∃ a b c d, op = ofNibbles a b c d := ⟨_, _, _, _, (ofNibbles_fields op).symm⟩
  rw [decode_eq_unknown_iff]
  simp only [opN1_ofNibbles, opX_ofNibbles, opY_ofNibbles, opN_ofNibbles, opImm_ofNibbles]
  induction a using nibble_cases with
  | n0 => simp [decodeNibbles_0, decode0_eq_none_iff]
  | n5 => simp [decodeNibbles_5]
  | n8 => simp [decodeNibbles_8, decode8_eq_none_iff]
  | n9 => simp [decodeNibbles_9]
  | nE => simp [decodeNibbles_E, decodeE_eq_none_iff]
  | nF => simp [decodeNibbles_F, decodeF_eq_none_iff]
  | _ => simp [decodeNibbles]

/-- Settles O5: each word is the opcode of its instruction, and the last selects no row. -/
theorem exampleWordsDecode : Obligations.ExampleWordsDecode := by
  refine ⟨decodeOfEncode (.loadImm 0 0x0A), decodeOfEncode (.addReg 0 1), decodeOfEncode (.draw 0 1 5),
    decodeOfEncode (.call 0x400), decodeOfEncode (.skipEqImm 0xA 0x42), decodeOfEncode (.bcd 0xA),
    decodeOfEncode (.waitKey 2), ?_⟩
  exact (unknownOpcodesAreThoseListed _).2 (.inr (.inl (by decide)))

end Sys2Proof
end

section
/-! What an instruction leaves alone: the frame of each update, and the shapes of an answer that the statements share. -/

namespace Sys2Proof.Machine

/-- A frame may list more pieces than are written. -/
theorem Frame.mono {ps qs : List Part} {s t : State} (h : Frame ps s t) (hsub : ps ⊆ qs) : Frame qs s t :=
  fun p hp => h p fun hp' => hp (hsub hp')

theorem Frame.refl (s : State) : Frame [] s s := by
  intro p _
  cases p <;> simp [Part.same]

/-- A change of the register file alone. -/
theorem frame_of_eq_v {s t : State} (h : t = { s with v := t.v }) : Frame [.v] s t := by
  rw [h]
  intro p hp
  cases p with
  | v => exact absurd List.mem_cons_self hp
  | _ => simp [Part.same]

theorem State.frame_setReg (s : State) (x : Nibble) (b : Byte) : Frame [.v] s (s.setReg x b) := frame_of_eq_v rfl

theorem State.frame_setI (s : State) (w : Word) : Frame [.i] s (s.setI w) := by
  intro p hp
  cases p with
  | i => exact absurd List.mem_cons_self hp
  | _ => simp [Part.same]

theorem State.frame_setStack (s : State) (stack : Vector Word 16) (sp : Fin 17) :
    Frame [.stack] s (s.setStack stack sp) := by
  intro p hp
  cases p with
  | stack => exact absurd List.mem_cons_self hp
  | _ => simp [Part.same]

theorem State.frame_setFb (s : State) (fb : Framebuffer) : Frame [.fb] s (s.setFb fb) := by
  intro p hp
  cases p with
  | fb => exact absurd List.mem_cons_self hp
  | _ => simp [Part.same]

theorem State.frame_nextRand (s : State) : Frame [.rand] s s.nextRand := by
  intro p hp
  cases p with
  | rand => exact absurd List.mem_cons_self hp
  | _ => simp [Part.same]

/-- Drawing changes `VF` and the framebuffer. -/
theorem DrawFrame.frame {s t : State} (h : DrawFrame s t) : Frame [.v, .fb] s t := by
  rw [h.1]
  intro p hp
  cases p with
  | v | fb => simp at hp
  | _ => simp [Part.same]

/-- What a body that writes registers only, followed by `Advance(1)`, says of one destination. -/
theorem writesOneReg_of_frame {i : Instr} {x : Nibble} {b : Byte} {s u : State}
    (hexec : exec i s = .next (u.applyPc (.advance 1))) (hframe : Frame [.v] s u) (hwritten : u.reg x = b)
    (hothers : ∀ y, y ≠ x → u.reg y = s.reg y) : WritesOneReg i x b s := by
  refine ⟨_, hexec, ?_, ?_, ?_, hframe.trans (u.frame_applyPc _)⟩
  · rw [State.reg_applyPc, hwritten]
  · intro y hy
    rw [State.reg_applyPc, hothers y hy]
  · have hpc : u.pc = s.pc := hframe .pc (by decide)
    rw [State.advance_pc, hpc]

/-- An instruction that raises takes the fault, with its own `PC` and opcode in the record (60_exceptions.md R95). -/
theorem haltsWith_of_raised {i : Instr} {s u : State} {out : PcOutcome} {cause : FaultCause}
    (hexec : exec i s = finish (encode i) out (.raised cause u)) (hpc : u.pc = s.pc) :
    HaltsWith (exec i s) { cause := cause, pc := s.pc, opcode := some (encode i) } := by
  refine ⟨_, hexec.trans (finish_raised ..), State.halt_halted .., ?_⟩
  rw [State.halt_fault, hpc]

end Sys2Proof.Machine
end

section
/-! Memory, the fetch and the block load (20_memory.md R29 to R35, 70_reset_and_hazards.md R113). -/

namespace Sys2Proof.Machine

/-- Settles O8, by the law of the fetch on each side of 0xFFE. -/
theorem fetchIsBigEndian : Obligations.FetchIsBigEndian := by
  intro s
  refine ⟨fun h => ⟨_, s.fetch_of_le h, opOfBytes_toNat _ _⟩, fun h => ?_, fun h => ?_⟩
  · rw [s.fetch_of_ge h.ge, h]
    rfl
  · rw [s.fetch_of_ge (by omega), Nat.max_eq_left h]

/-- An address that is not listed reads as the reset contents. -/
theorem Memory.read_of_not_listed {m : Memory} {a : Nat} (h : ∀ c ∈ m, c.1 ≠ a) : m.read a = Memory.unlisted a := by
  induction m with
  | nil => rfl
  | cons c m ih =>
    rw [Memory.read, if_neg (h c List.mem_cons_self), ih fun c hc => h c (List.mem_cons_of_mem _ hc)]

/-- The first cell of a canonical memory is the lowest address that reads otherwise than the reset contents, so a memory that
lists only higher addresses, or none, reads differently there. -/
theorem Memory.read_ne_of_all_above {k : Nat} {b : Byte} {m m' : Memory} (hwf : Memory.wf ((k, b) :: m) = true)
    (habove : ∀ c ∈ m', k < c.1) : Memory.read ((k, b) :: m) k ≠ m'.read k := by
  obtain ⟨-, hb, -, -⟩ := (Memory.wf_cons k b m).1 hwf
  rw [Memory.read_of_not_listed fun c hc => (habove c hc).ne', Memory.read, if_pos rfl]
  exact hb

theorem Memory.all_above_of_wf {k k' : Nat} {b' : Byte} {m' : Memory} (hlt : k < k')
    (hwf' : Memory.wf ((k', b') :: m') = true) : ∀ c ∈ (k', b') :: m', k < c.1 := by
  obtain ⟨-, -, hall', -⟩ := (Memory.wf_cons k' b' m').1 hwf'
  exact List.forall_mem_cons.2 ⟨hlt, fun c hc => hlt.trans (hall' c hc)⟩

/-- The tails of two canonical memories with the same first cell read the same wherever the whole memories do. -/
theorem Memory.tail_read_eq {k : Nat} {b : Byte} {m m' : Memory} (hwf : Memory.wf ((k, b) :: m) = true)
    (hwf' : Memory.wf ((k, b) :: m') = true) {a : Nat}
    (h : Memory.read ((k, b) :: m) a = Memory.read ((k, b) :: m') a) : m.read a = m'.read a := by
  obtain ⟨-, -, hall, -⟩ := (Memory.wf_cons k b m).1 hwf
  obtain ⟨-, -, hall', -⟩ := (Memory.wf_cons k b m').1 hwf'
  by_cases hka : k = a
  · subst hka
    rw [Memory.read_of_not_listed fun c hc => (hall c hc).ne', Memory.read_of_not_listed fun c hc => (hall' c hc).ne']
  · simpa [Memory.read, hka] using h

/-- Settles O9, by induction on the first list: the first cells must have the same address, since the lower of the two would read
differently, hence the same byte, and the tails read the same. -/
theorem canonicalMemoryIsUnique : Obligations.CanonicalMemoryIsUnique := by
  intro m
  induction m with
  | nil =>
    intro m' _ hwf' hread
    cases m' with
    | nil => rfl
    | cons c m' =>
      obtain ⟨hk', -, -, -⟩ := (Memory.wf_cons c.1 c.2 m').1 hwf'
      exact absurd (hread c.1 hk').symm (Memory.read_ne_of_all_above hwf' (by simp))
  | cons c m ih =>
    intro m' hwf hwf' hread
    obtain ⟨k, b⟩ := c
    obtain ⟨hk, -, -, hm⟩ := (Memory.wf_cons k b m).1 hwf
    cases m' with
    | nil => exact absurd (hread k hk) (Memory.read_ne_of_all_above hwf (by simp))
    | cons c' m' =>
      obtain ⟨k', b'⟩ := c'
      obtain ⟨hk', -, -, hm'⟩ := (Memory.wf_cons k' b' m').1 hwf'
      rcases Nat.lt_trichotomy k k' with hlt | rfl | hlt
      · exact absurd (hread k hk) (Memory.read_ne_of_all_above hwf (Memory.all_above_of_wf hlt hwf'))
      · have hb : b = b' := by simpa [Memory.read] using hread k hk
        subst hb
        rw [ih m' hm hm' fun a ha => Memory.tail_read_eq hwf hwf' (hread a ha)]
      · exact absurd (hread k' hk').symm (Memory.read_ne_of_all_above hwf' (Memory.all_above_of_wf hlt hwf))

/-- A byte of a block load that falls below 4096 is read back. -/
theorem Memory.read_load_inside {m : Memory} {base k : Nat} {bytes : List Byte} {b : Byte} (hb : bytes[k]? = some b)
    (hk : base + k < 4096) : (m.load base bytes).read (base + k) = b := by
  obtain ⟨hlen, hget⟩ := List.getElem?_eq_some_iff.1 hb
  have hcover : base ≤ base + k ∧ base + k - base < bytes.length ∧ base + k < 4096 := by omega
  rw [Memory.read_load, dif_pos hcover]
  simpa using hget

/-- A block load leaves the bytes outside it, and all from 4096 on. -/
theorem Memory.read_load_outside {m : Memory} {base a : Nat} {bytes : List Byte}
    (ha : a < base ∨ base + bytes.length ≤ a ∨ 4096 ≤ a) : (m.load base bytes).read a = m.read a := by
  rw [Memory.read_load, dif_neg (by omega)]

/-- Settles O10, by the law of a read after a block load. -/
theorem blockLoadTruncates : Obligations.BlockLoadTruncates := fun _ _ _ =>
  ⟨fun _ _ => Memory.read_load_inside, fun _ => Memory.read_load_outside⟩

end Sys2Proof.Machine
end

section
/-! Calls, returns and the computed jump (41_control_flow.md R58, R60, R61). -/

namespace Sys2Proof.Machine

/-- The arm of `jump-plus-v0`: `Jump` to the exact sum. -/
theorem exec_jumpPlusV0 (nnn : Addr12) (s : State) :
    exec (.jumpPlusV0 nnn) s = .next (s.applyPc (.jump ((s.reg 0#4).toNat + nnn.toNat))) := rfl

/-- Settles O17: the sum of a byte and a 12-bit address fits in `PC`, so `Jump` reaches it as it is. -/
theorem jumpPlusV0SetsPc : Obligations.JumpPlusV0SetsPc := by
  intro nnn s
  have hv : (s.reg 0#4).toNat < 256 := (s.reg 0#4).isLt
  have hnnn : nnn.toNat < 4096 := nnn.isLt
  have hpc : (s.applyPc (.jump ((s.reg 0#4).toNat + nnn.toNat))).pc.toNat = (s.reg 0#4).toNat + nnn.toNat :=
    s.applyPc_jump_pc_toNat (by omega)
  exact ⟨_, exec_jumpPlusV0 nnn s, hpc, by omega, s.frame_applyPc _⟩

/-- The address a call pushes (90_conflicts.md C4). -/
theorem State.returnAddress_eq (s : State) : BitVec.ofNat 16 (s.pc.toNat + Config.slot) = s.pc + 2#16 := s.advance_pc 1

/-- The arm of `call`: a push, then `Jump(NNN)`. -/
theorem exec_call (nnn : Addr12) (s : State) :
    exec (.call nnn) s = finish (encode (.call nnn)) (.jump nnn.toNat) (s.push (s.pc + 2#16)) := by
  rw [← s.returnAddress_eq]
  rfl

theorem exec_call_of_lt (nnn : Addr12) {s : State} (h : s.sp.val < 16) :
    exec (.call nnn) s = .next
      ((s.setStack (s.stack.set s.sp.val (s.pc + 2#16) h) ⟨s.sp.val + 1, Nat.succ_lt_succ h⟩).applyPc (.jump nnn.toNat)) := by
  rw [exec_call, s.push_of_lt _ h, finish_done]

theorem exec_ret_of_pos {s : State} (h : 0 < s.sp.val) :
    exec .ret s = .next
      ((s.setStack s.stack ⟨s.sp.val - 1, by omega⟩).applyPc (.jump (s.stack[s.sp.val - 1]'(by omega)).toNat)) := by
  show execRet s = _
  rw [execRet, s.pop_of_pos h]
  rfl

theorem exec_ret_empty {s : State} (h : s.sp.val = 0) :
    exec .ret s = finish (encode .ret) (.advance 0) (.raised .stackUnderflow s) := by
  show execRet s = _
  rw [execRet, s.pop_empty h]

/-- Settles O18, by the two cases of the push. -/
theorem callPushesOrOverflows : Obligations.CallPushesOrOverflows := by
  intro nnn s
  constructor
  · intro h
    have hnnn : nnn.toNat < 65536 := by omega
    refine ⟨_, exec_call_of_lt nnn h, ?_, ?_, ?_, State.applyPc_jump_pc_toNat _ hnnn,
      (s.frame_setStack _ _).trans (State.frame_applyPc _ _)⟩
    · simp
    · simp [h]
    · intro j hj
      rw [State.applyPc_stack, State.setStack_stack, Vector.getElem?_set_ne _ hj.symm]
  · intro h
    exact haltsWith_of_raised (by rw [exec_call, s.push_full _ h]) rfl

/-- Settles O19, by the two cases of the pop. -/
theorem returnPopsOrUnderflows : Obligations.ReturnPopsOrUnderflows := by
  intro s
  constructor
  · intro h
    refine ⟨_, exec_ret_of_pos h, ?_, ?_, ?_, (s.frame_setStack _ _).trans (State.frame_applyPc _ _)⟩
    · simp
    · have hbound : s.sp.val - 1 < 16 := by omega
      simp [hbound]
    · simp
  · exact fun h => haltsWith_of_raised (exec_ret_empty h) rfl

/-- Settles O20: the return pops the entry that the call pushed, which by O18 is the address after the call. -/
theorem returnUndoesCall : Obligations.ReturnUndoesCall := by
  intro nnn s t u hroom hcall hstack hsp
  obtain ⟨t', hcall', hsp', hentry, -, -, -⟩ := (callPushesOrOverflows nnn s).1 hroom
  obtain rfl : t' = t := by simpa [hcall'] using hcall
  have hused : u.sp.val = s.sp.val + 1 := by rw [hsp, hsp']
  obtain ⟨w, hret, hspw, hpc, -, -⟩ := (returnPopsOrUnderflows u).1 (by omega)
  refine ⟨w, hret, ?_, Fin.ext (by omega)⟩
  have hplace : u.sp.val - 1 = s.sp.val := by omega
  rw [hplace, hstack, hentry] at hpc
  exact (Option.some.inj hpc).symm

end Sys2Proof.Machine
end

section
/-! Keys (42_skip.md R67, R68; 45_timers_keys.md R91). -/

namespace Sys2Proof.Machine

/-- A key skip on a key: it skips when the key is as wanted. -/
theorem skipsWhen_key {i : Instr} {k : Byte} {wanted : Bool} {s : State} (hexec : exec i s = keySkip (encode i) k wanted s)
    (hk : k.toNat < 16) : SkipsWhen i (s.keys[k.toNat]? = some wanted) s := by
  refine skipsWhen_of_exec_eq_skipIf (hexec.trans (keySkip_of_lt _ hk wanted s)) ?_
  rw [beq_iff_eq, Vector.getElem?_eq_getElem hk, Option.some.injEq]

theorem haltsWith_key {i : Instr} {k : Byte} {wanted : Bool} {s : State} (hexec : exec i s = keySkip (encode i) k wanted s)
    (hk : 16 ≤ k.toNat) :
    HaltsWith (exec i s) { cause := .keyIndexOutOfRange k, pc := s.pc, opcode := some (encode i) } :=
  haltsWith_of_raised (out := .advance 0) (hexec.trans (keySkip_of_ge _ hk wanted s)) rfl

/-- Settles O22, by the two cases of the key index. -/
theorem keySkips : Obligations.KeySkips := fun _ _ =>
  ⟨fun h => ⟨skipsWhen_key rfl h, skipsWhen_key rfl h⟩, fun h => ⟨haltsWith_key rfl h, haltsWith_key rfl h⟩⟩

theorem exec_waitKey_of_some (x : Nibble) {s : State} {k : Fin 16} (h : s.lowestKey = some k) :
    exec (.waitKey x) s = writeReg x (BitVec.ofNat 8 k.val) s := by
  show execWaitKey x s = _
  rw [execWaitKey, h]
  rfl

theorem exec_waitKey_of_none (x : Nibble) {s : State} (h : s.lowestKey = none) :
    exec (.waitKey x) s = .next (s.applyPc (.advance 0)) := by
  show execWaitKey x s = _
  rw [execWaitKey, h]
  rfl

/-- `Advance(0)` leaves `PC` too. -/
theorem State.frame_advance_zero (s : State) : Frame [] s (s.applyPc (.advance 0)) := by
  intro p _
  cases p with
  | pc => simp [Part.same]
  | _ => exact s.frame_applyPc _ _ (by decide)

/-- Settles O38, by the two answers of the scan of the keymap. -/
theorem waitKeyTakesLowestKey : Obligations.WaitKeyTakesLowestKey := by
  intro x s
  constructor
  · intro k hk hlower
    exact writesOneReg_of_exec_eq_writeReg (exec_waitKey_of_some x ((s.lowestKey_eq_some k).2 ⟨hk, hlower⟩))
  · intro hnone
    exact ⟨_, exec_waitKey_of_none x (s.lowestKey_eq_none.2 hnone), s.frame_advance_zero⟩

end Sys2Proof.Machine
end

section
/-! The ALU (43_alu.md R74 to R82). -/

namespace Sys2Proof.Machine

/-- Settles O25: each arm is `writeReg` of its result. -/
theorem bitwiseLogic : Obligations.BitwiseLogic := fun _ _ _ =>
  ⟨writesOneReg_of_exec_eq_writeReg rfl, writesOneReg_of_exec_eq_writeReg rfl, writesOneReg_of_exec_eq_writeReg rfl⟩

/-- Two writes of `VF` leave the second. -/
theorem writesOneReg_vF_twice {i : Instr} {s : State} {b f : Byte}
    (hexec : exec i s = finish (encode i) (.advance 1) (.done ((s.setReg vF b).setReg vF f))) : WritesOneReg i vF f s := by
  refine writesOneReg_of_frame (hexec.trans (finish_done ..)) (frame_of_eq_v rfl) ?_ fun y hy => ?_
  · rw [State.reg_setReg, if_pos rfl]
  · rw [State.reg_setReg, if_neg hy, State.reg_setReg, if_neg hy]

/-- Both values written to different registers: the result to `Vx` and the flag to `VF` (R70). -/
theorem writes_both_of_ne {i : Instr} {x : Nibble} {res f : Byte} {s : State}
    (hexec : exec i s = aluWithFlag (encode i) x res f s) (hx : x ≠ vF) :
    ∃ t, exec i s = .next t ∧ t.reg x = res ∧ t.reg vF = f ∧ (∀ y, y ≠ x → y ≠ vF → t.reg y = s.reg y) ∧
      t.pc = s.pc + 2#16 ∧ Frame [.v, .pc] s t := by
  rw [aluWithFlag, setWithFlag_of_ne _ hx] at hexec
  have hframe : Frame [.v] s ((s.setReg x res).setReg vF f) := frame_of_eq_v rfl
  refine ⟨_, hexec.trans (finish_done ..), ?_, ?_, fun y hy hyF => ?_, ?_, hframe.trans (State.frame_applyPc _ _)⟩
  · simp [hx]
  · simp
  · simp [hy, hyF]
  · rw [State.advance_pc, State.setReg_pc, State.setReg_pc]

/-- An arm that ends in `set_with_flag` meets the shape of R70, under each policy. -/
theorem writesRegAndFlag_of_exec_eq_aluWithFlag {i : Instr} {x : Nibble} {res f : Byte} {s : State}
    (hexec : exec i s = aluWithFlag (encode i) x res f s) : WritesRegAndFlag i x res f s := by
  refine ⟨writes_both_of_ne hexec, ?flagLast, ?resultLast, ?fault⟩
  all_goals
    intro hx hpolicy
    rw [hx, aluWithFlag, setWithFlag_vF, hpolicy] at hexec
  case flagLast => exact writesOneReg_vF_twice hexec
  case resultLast => exact writesOneReg_vF_twice hexec
  case fault => exact haltsWith_of_raised hexec rfl

theorem flagByte_decide (p : Prop) [Decidable p] : flagByte (decide p) = if p then 1#8 else 0#8 := by
  by_cases hp : p <;> simp [flagByte, hp]

/-- The arm of `add-reg`, in 8-bit arithmetic (R69, R77). -/
theorem exec_addReg (x y : Nibble) (s : State) :
    exec (.addReg x y) s = aluWithFlag (encode (.addReg x y)) x (s.reg x + s.reg y)
      (if (s.reg x).toNat + (s.reg y).toNat > 255 then 1#8 else 0#8) s := by
  rw [← addResult_eq, ← flagByte_decide]
  rfl

/-- The arm of `sub`, in 8-bit arithmetic (R69, R78). -/
theorem exec_sub (x y : Nibble) (s : State) :
    exec (.sub x y) s = aluWithFlag (encode (.sub x y)) x (s.reg x - s.reg y)
      (if (s.reg x).toNat ≥ (s.reg y).toNat then 1#8 else 0#8) s := by
  rw [← subResult_eq, ← flagByte_decide]
  rfl

/-- The arm of `subn`, in 8-bit arithmetic (R69, R79). -/
theorem exec_subn (x y : Nibble) (s : State) :
    exec (.subn x y) s = aluWithFlag (encode (.subn x y)) x (s.reg y - s.reg x)
      (if (s.reg y).toNat > (s.reg x).toNat then 1#8 else 0#8) s := by
  rw [← subResult_eq, ← flagByte_decide]
  rfl

/-- The arm of `shr`, on numbers (R80). -/
theorem exec_shr (x y : Nibble) (s : State) :
    exec (.shr x y) s = aluWithFlag (encode (.shr x y)) x (BitVec.ofNat 8 ((s.reg x).toNat / 2))
      (BitVec.ofNat 8 ((s.reg x).toNat % 2)) s := by
  rw [← shrResult_eq, ← shrOut_eq]
  rfl

/-- The arm of `shl`, on numbers (R81). -/
theorem exec_shl (x y : Nibble) (s : State) :
    exec (.shl x y) s = aluWithFlag (encode (.shl x y)) x (BitVec.ofNat 8 (2 * (s.reg x).toNat))
      (BitVec.ofNat 8 ((s.reg x).toNat / 128)) s := by
  rw [← shlResult_eq, ← shlOut_eq]
  rfl

/-- Settles O26: the arm is `set_with_flag` of the wrapped sum and the carry. -/
theorem addRegSetsCarry : Obligations.AddRegSetsCarry := fun x y s =>
  writesRegAndFlag_of_exec_eq_aluWithFlag (exec_addReg x y s)

/-- Settles O27: the arm is `set_with_flag` of the wrapped difference and the no-borrow flag. -/
theorem subSetsNoBorrow : Obligations.SubSetsNoBorrow := fun x y s =>
  writesRegAndFlag_of_exec_eq_aluWithFlag (exec_sub x y s)

/-- Settles O28: the arm is `set_with_flag` of the wrapped difference and the strict flag. -/
theorem subnSetsStrictFlag : Obligations.SubnSetsStrictFlag := fun x y s =>
  writesRegAndFlag_of_exec_eq_aluWithFlag (exec_subn x y s)

/-- Settles O29: the arm is `set_with_flag` of the half and bit 0. -/
theorem shrShiftsRight : Obligations.ShrShiftsRight := fun x y s =>
  writesRegAndFlag_of_exec_eq_aluWithFlag (exec_shr x y s)

/-- Settles O30: the arm is `set_with_flag` of the double and bit 7. -/
theorem shlShiftsLeft : Obligations.ShlShiftsLeft := fun x y s =>
  writesRegAndFlag_of_exec_eq_aluWithFlag (exec_shl x y s)

/-- The arm of `rand`: the draw is used up, and its masked byte goes to `Vx`. -/
theorem exec_rand (x : Nibble) (nn : Byte) (s : State) :
    exec (.rand x nn) s = .next ((s.nextRand.setReg x (Config.rand s.randDraws &&& nn)).applyPc (.advance 1)) := rfl

/-- Settles O31: the draw, the register and `PC` are the three updates. -/
theorem randMasksAFreshByte : Obligations.RandMasksAFreshByte := by
  intro x nn s
  have hframe := s.frame_nextRand.trans (s.nextRand.frame_setReg_applyPc x (Config.rand s.randDraws &&& nn) (.advance 1))
  refine ⟨_, exec_rand x nn s, ?_, ?_, fun y hy => ?_, ?_, ?_, hframe.mono (by decide)⟩
  · simp
  · simp [BitVec.and_assoc]
  · simp [hy]
  · simp
  · rw [State.advance_pc, State.setReg_pc, State.nextRand_pc]

end Sys2Proof.Machine
end

section
/-! The index register and the instructions that go through it to memory (44_index_memory.md). -/

namespace Sys2Proof.Machine

/-- An arm that writes `I` and advances, with the new `I` as a number. -/
theorem writesI_of_exec {i : Instr} {s : State} {w : Word} {n : Nat}
    (hexec : exec i s = .next ((s.setI w).applyPc (.advance 1))) (hw : w.toNat = n) :
    ∃ t, exec i s = .next t ∧ t.i.toNat = n ∧ t.pc = s.pc + 2#16 ∧ Frame [.i, .pc] s t := by
  refine ⟨_, hexec, ?_, ?_, (s.frame_setI _).trans (State.frame_applyPc _ _)⟩
  · rw [State.applyPc_i, State.setI_i, hw]
  · rw [State.advance_pc, State.setI_pc]

/-- The arm of `load-index`. -/
theorem exec_loadIndex (nnn : Addr12) (s : State) :
    exec (.loadIndex nnn) s = .next ((s.setI (BitVec.ofNat 16 nnn.toNat)).applyPc (.advance 1)) := rfl

/-- The arm of `add-index`. -/
theorem exec_addIndex (x : Nibble) (s : State) :
    exec (.addIndex x) s = .next ((s.setI (BitVec.ofNat 16 (s.i.toNat + (s.reg x).toNat))).applyPc (.advance 1)) := rfl

/-- The arm of `font-addr`. -/
theorem exec_fontAddr (x : Nibble) (s : State) :
    exec (.fontAddr x) s = .next ((s.setI (glyphAddr (s.reg x))).applyPc (.advance 1)) := rfl

theorem glyphAddr_toNat (b : Byte) : (glyphAddr b).toNat = b.toNat * 5 := by
  have hb : b.toNat < 256 := b.isLt
  show (BitVec.ofNat 16 (0 + b.toNat * 5)).toNat = _
  rw [BitVec.toNat_ofNat]
  omega

/-- Settles O32: each arm writes `I` alone, to 16 bits, which only the sum of `add-index` can exceed. -/
theorem indexWrites : Obligations.IndexWrites := by
  intro x nnn s
  refine ⟨writesI_of_exec (exec_loadIndex nnn s) ?_, writesI_of_exec (exec_addIndex x s) ?_,
    writesI_of_exec (exec_fontAddr x s) (glyphAddr_toNat _)⟩
  · rw [BitVec.toNat_ofNat]
    omega
  · rw [BitVec.toNat_ofNat]

/-! ### Storing bytes -/

/-- An arm that stores bytes from `I` on, where all of them are in memory. -/
theorem exec_store_of_le {i : Instr} {bs : List Byte} {s : State}
    (hexec : exec i s = finish (encode i) (.advance 1) (storeBytes (s.dataAddr 0) bs s)) (h : s.dataAddr bs.length ≤ 4096) :
    exec i s = .next ((s.setMem (s.mem.load (s.dataAddr 0) bs)).applyPc (.advance 1)) := by
  rw [hexec, storeBytes_of_le bs (s.dataAddr 0) s h, finish_done]

/-- An arm that stores bytes from `I` on, where some of them leave memory. -/
theorem haltsOutOfRange_store {i : Instr} {bs : List Byte} {s : State}
    (hexec : exec i s = finish (encode i) (.advance 1) (storeBytes (s.dataAddr 0) bs s)) (hne : bs ≠ [])
    (h : 4096 < s.dataAddr bs.length) : HaltsOutOfRange i (s.dataAddr 0) s := by
  rw [storeBytes_of_gt bs (s.dataAddr 0) s hne h] at hexec
  exact haltsWith_of_raised hexec rfl

/-- What an arm that stores bytes from `I` on leaves: the bytes, what lies outside them, `PC` and the frame. -/
theorem stores_of_le {i : Instr} {bs : List Byte} {s : State}
    (hexec : exec i s = finish (encode i) (.advance 1) (storeBytes (s.dataAddr 0) bs s)) (h : s.dataAddr bs.length ≤ 4096) :
    ∃ t, exec i s = .next t ∧ (∀ k b, bs[k]? = some b → t.mem.read (s.dataAddr k) = b) ∧
      (∀ a, a < s.dataAddr 0 ∨ s.dataAddr bs.length ≤ a → t.mem.read a = s.mem.read a) ∧
      t.pc = s.pc + 2#16 ∧ Frame [.mem, .pc] s t := by
  refine ⟨_, exec_store_of_le hexec h, fun k b hb => ?_, fun a ha => ?_, ?_,
    (s.frame_setMem _).trans (State.frame_applyPc _ _)⟩
  · obtain ⟨hk, -⟩ := List.getElem?_eq_some_iff.1 hb
    rw [State.applyPc_mem, State.setMem_mem]
    exact Memory.read_load_inside (base := s.dataAddr 0) hb (by simp only [State.dataAddr] at h ⊢; omega)
  · rw [State.applyPc_mem, State.setMem_mem]
    exact Memory.read_load_outside (by simp only [State.dataAddr] at ha ⊢; omega)
  · rw [State.advance_pc, State.setMem_pc]

/-- The arm of `bcd`. -/
theorem exec_bcd (x : Nibble) (s : State) :
    exec (.bcd x) s = finish (encode (.bcd x)) (.advance 1) (storeBytes (s.dataAddr 0) (bcdDigits (s.reg x)) s) := rfl

/-- Settles O33: the three bytes stored are the decimal digits of `Vx`. -/
theorem bcdWritesDigits : Obligations.BcdWritesDigits := by
  intro x s
  have hlen : (bcdDigits (s.reg x)).length = 3 := rfl
  have hx : (s.reg x).toNat < 256 := (s.reg x).isLt
  constructor
  · intro h
    obtain ⟨t, ht, hbytes, houtside, hpc, hframe⟩ := stores_of_le (exec_bcd x s) h
    refine ⟨t, (s.reg x).toNat / 100, (s.reg x).toNat / 10 % 10, (s.reg x).toNat % 10, ht, hbytes 0 _ rfl, hbytes 1 _ rfl,
      hbytes 2 _ rfl, by omega, by omega, by omega, by omega, fun a ha => houtside a ?_, hpc, hframe⟩
    rw [hlen]
    simp only [State.dataAddr] at ha ⊢
    omega
  · intro h
    exact haltsOutOfRange_store (exec_bcd x s) (List.cons_ne_nil _ _) (Nat.lt_succ_of_le h)

/-- The arm of `store-range`. -/
theorem exec_storeRange (x : Nibble) (s : State) :
    exec (.storeRange x) s = finish (encode (.storeRange x)) (.advance 1) (storeBytes (s.dataAddr 0) (s.regsUpTo x) s) := rfl

@[simp] theorem State.length_regsUpTo (s : State) (x : Nibble) : (s.regsUpTo x).length = x.toNat + 1 := by
  have := x.isLt
  simp only [State.regsUpTo, List.length_take, Vector.length_toList]
  omega

theorem State.getElem?_regsUpTo (s : State) {x k : Nibble} (h : k.toNat ≤ x.toNat) :
    (s.regsUpTo x)[k.toNat]? = some (s.reg k) := by
  have hk : k.toNat < 16 := k.isLt
  rw [State.regsUpTo, List.getElem?_take_of_lt (Nat.lt_succ_of_le h)]
  simp [State.reg, hk]

/-- Settles O34: the bytes stored are `V0`..`Vx`, one more than `x` in number. -/
theorem storeRangeStores : Obligations.StoreRangeStores := by
  intro x s
  have hlen : s.dataAddr (s.regsUpTo x).length = s.dataAddr x.toNat + 1 := by rw [s.length_regsUpTo]; rfl
  constructor
  · intro h
    obtain ⟨t, ht, hbytes, houtside, hpc, hframe⟩ := stores_of_le (exec_storeRange x s) (by omega)
    exact ⟨t, ht, fun k hk => hbytes _ _ (s.getElem?_regsUpTo hk), fun a ha => houtside a (by omega), hpc, hframe⟩
  · intro h
    refine haltsOutOfRange_store (exec_storeRange x s) ?_ (by omega)
    exact List.ne_nil_of_length_pos (by rw [s.length_regsUpTo]; omega)

/-- Settles O11: by O34 the two bytes at the new `PC` are the two registers. -/
theorem storedCodeIsFetched : Obligations.StoredCodeIsFetched := by
  intro x j s hpc hlast hj hx
  obtain ⟨t, ht, hstored, -, hpct, -⟩ := (storeRangeStores x s).1 hlast
  have hxlt : x.toNat < 16 := x.isLt
  have hjNat : (BitVec.ofNat 4 j).toNat = j := by rw [BitVec.toNat_ofNat]; omega
  have hj1Nat : (BitVec.ofNat 4 (j + 1)).toNat = j + 1 := by rw [BitVec.toNat_ofNat]; omega
  have hpcNat : t.pc.toNat = s.pc.toNat + 2 := by rw [hpct]; bv_omega
  have hhi := hstored (BitVec.ofNat 4 j) (by omega)
  have hlo := hstored (BitVec.ofNat 4 (j + 1)) (by omega)
  have hj' : s.dataAddr (j + 1) = s.pc.toNat + 2 + 1 := by rw [← hj]; rfl
  rw [hjNat, hj] at hhi
  rw [hj1Nat, hj'] at hlo
  refine ⟨t, ht, ?_⟩
  rw [t.fetch_of_le (by omega), hpcNat, hhi, hlo]

/-! ### Loading registers -/

/-- The arm of `load-range`. -/
theorem exec_loadRange (x : Nibble) (s : State) :
    exec (.loadRange x) s =
      finish (encode (.loadRange x)) (.advance 1) (loadRegs (x.toNat + 1) (s.dataAddr 0) 0 s) := rfl

/-- Where every byte is in memory, the body of `load-range` runs to its end: register `k` of `V0`..`Vx` holds the byte at
`I + k`. -/
theorem loadRegs_range_of_lt (x : Nibble) {s : State} (h : s.dataAddr x.toNat < 4096) :
    ∃ u, loadRegs (x.toNat + 1) (s.dataAddr 0) 0 s = .done u ∧ u = { s with v := u.v } ∧
      ∀ k : Nibble, u.reg k = if k.toNat ≤ x.toNat then s.mem.read (s.dataAddr k.toNat) else s.reg k := by
  have hx : x.toNat < 16 := x.isLt
  obtain ⟨u, hu, hv, hreg⟩ := loadRegs_of_le (x.toNat + 1) (s.dataAddr 0) 0 s (by omega)
    (by simp only [State.dataAddr] at h ⊢; omega)
  refine ⟨u, hu, hv, fun k => ?_⟩
  have hrange : 0 ≤ k.toNat ∧ k.toNat < 0 + (x.toNat + 1) ↔ k.toNat ≤ x.toNat := by omega
  rw [hreg k]
  simp only [hrange]
  rfl

/-- Where some byte leaves memory, the body of `load-range` raises the fault of the first such address. -/
theorem loadRegs_range_of_ge (x : Nibble) {s : State} (h : 4096 ≤ s.dataAddr x.toNat) :
    ∃ u, loadRegs (x.toNat + 1) (s.dataAddr 0) 0 s = .raised (.memoryOutOfRange (max (s.dataAddr 0) 4096)) u ∧
      u = { s with v := u.v } := by
  have hx : x.toNat < 16 := x.isLt
  exact loadRegs_of_gt (x.toNat + 1) (s.dataAddr 0) 0 s (by omega) (by omega)
    (by simp only [State.dataAddr] at h ⊢; omega)

/-- Settles O35, by the two cases of the body; the rest of the register file and of the state is its frame. -/
theorem loadRangeLoads : Obligations.LoadRangeLoads := by
  intro x s
  constructor
  · intro h
    obtain ⟨u, hu, hv, hreg⟩ := loadRegs_range_of_lt x h
    have hexec := exec_loadRange x s
    rw [hu, finish_done] at hexec
    have hframe := frame_of_eq_v hv
    refine ⟨_, hexec, fun k hk => ?_, fun k hk => ?_, ?_, hframe.trans (State.frame_applyPc _ _)⟩
    · rw [State.reg_applyPc, hreg k, if_pos hk]
    · rw [State.reg_applyPc, hreg k, if_neg (Nat.not_le.2 hk)]
    · have hpc : u.pc = s.pc := hframe .pc (by decide)
      rw [State.advance_pc, hpc]
  · intro h
    obtain ⟨u, hu, hv⟩ := loadRegs_range_of_ge x h
    exact haltsWith_of_raised (by rw [exec_loadRange, hu]) (frame_of_eq_v hv .pc (by decide))

/-- Settles O36: what O35 loads are the bytes that O34 stored, since `I` and memory are as they were then. -/
theorem loadRangeUndoesStoreRange : Obligations.LoadRangeUndoesStoreRange := by
  intro x s t u hlast hstore hi hmem
  obtain ⟨t', ht', hstored, -, -, hframe⟩ := (storeRangeStores x s).1 hlast
  obtain rfl : t' = t := by simpa [ht'] using hstore
  have hi' : u.i = s.i := hi.trans (hframe .i (by decide))
  have haddr : ∀ k, u.dataAddr k = s.dataAddr k := fun k => by rw [State.dataAddr, hi', State.dataAddr]
  obtain ⟨w, hw, hloaded, -, -, -⟩ := (loadRangeLoads x u).1 (by rwa [haddr])
  refine ⟨w, hw, fun k hk => ?_⟩
  rw [hloaded k hk, hmem, haddr, hstored k hk]

end Sys2Proof.Machine
end

section
/-! The display (40_display.md R55, R56). -/

namespace Sys2Proof.Machine

/-- The arm of `clear-screen`. -/
theorem exec_clearScreen (s : State) :
    exec .clearScreen s = .next ((s.setFb Framebuffer.clear).applyPc (.advance 1)) := rfl

/-- A pixel depends on the framebuffer alone. -/
@[simp] theorem State.pixel_applyPc (s : State) (out : PcOutcome) (row : Fin 32) (col : Fin 64) :
    (s.applyPc out).pixel row col = s.pixel row col := by
  rw [State.pixel, State.applyPc_fb, State.pixel]

/-- Settles O12: the framebuffer is replaced by the cleared one. -/
theorem clearScreenZeroesEveryPixel : Obligations.ClearScreenZeroesEveryPixel := by
  intro s
  refine ⟨_, exec_clearScreen s, fun row col => ?_, ?_, (s.frame_setFb _).trans (State.frame_applyPc _ _)⟩
  · rw [State.pixel_applyPc, State.pixel, State.setFb_fb, Framebuffer.read_clear]
  · rw [State.advance_pc, State.setFb_pc]

/-- The arm of `draw`: the coordinates are those before `VF` is cleared (D6). -/
theorem exec_draw (x y n : Nibble) (s : State) :
    exec (.draw x y n) s = finish (encode (.draw x y n)) (.advance 1)
      (drawRows (s.reg x).toNat (s.reg y).toNat n.toNat 0 (s.setReg vF 0#8)) := rfl

/-- Clearing `VF`, the first thing `draw` does, is within the frame of drawing. -/
theorem DrawFrame.clearVF (s : State) : DrawFrame s (s.setReg vF 0#8) :=
  ⟨rfl, fun z hz => by rw [State.reg_setReg, if_neg hz]⟩

/-- Where every row is in memory, the body of `draw` runs to its end: each pixel is XORed with the sprite's bit on it, and `VF`,
which was cleared first, gains the collision. -/
theorem draw_body_of_le (x y n : Nibble) (s : State) (h : s.dataAddr n.toNat ≤ 4096 ∨ n = 0#4) :
    ∃ u, drawRows (s.reg x).toNat (s.reg y).toNat n.toNat 0 (s.setReg vF 0#8) = .done u ∧ DrawFrame s u ∧
      (∀ row col, u.pixel row col = true ↔
        Xor (s.pixel row col = true) (SpriteCovers s (s.reg x).toNat (s.reg y).toNat n.toNat row col)) ∧
      GainsBit 0#8 (u.reg vF) (Collides s (s.reg x).toNat (s.reg y).toNat n.toNat) := by
  have hrows : n.toNat = 0 ∨ (s.setReg vF 0#8).dataAddr (0 + n.toNat) ≤ 4096 := by
    rcases h with h | rfl
    · exact .inr (by rwa [Nat.zero_add])
    · exact .inl rfl
  have hn : n.toNat < 16 := n.isLt
  obtain ⟨u, hu, hframe, hpixel, hflag⟩ :=
    drawRows_of_le (s.reg x).toNat (s.reg y).toNat n.toNat 0 (s.setReg vF 0#8) hrows (by omega)
  simp only [rowsCover_iff] at hpixel hflag
  rw [State.reg_setReg, if_pos rfl] at hflag
  exact ⟨u, hu, (DrawFrame.clearVF s).trans hframe, hpixel, hflag⟩

/-- Settles O13: the body as above, then `Advance(1)`. -/
theorem drawXorsTheSprite : Obligations.DrawXorsTheSprite := by
  intro x y n s h
  obtain ⟨u, hu, hdraw, hpixel, hhit, hmiss⟩ := draw_body_of_le x y n s h
  have hexec := exec_draw x y n s
  rw [hu, finish_done] at hexec
  refine ⟨_, hexec, fun row col => ?_, fun hc => ?_, fun hc => ?_, fun z hz => ?_, ?_,
    hdraw.frame.trans (State.frame_applyPc _ _)⟩
  · rw [State.pixel_applyPc, hpixel]
  · rw [State.reg_applyPc, hhit hc]
    rfl
  · rw [State.reg_applyPc, hmiss hc]
  · rw [State.reg_applyPc, hdraw.2 z hz]
  · have hpc : u.pc = s.pc := hdraw.frame .pc (by decide)
    rw [State.advance_pc, hpc]

/-- Where some row leaves memory, the body of `draw` raises the fault of the first such row. -/
theorem draw_body_of_gt (x y n : Nibble) (s : State) (hn : n ≠ 0#4) (h : 4096 < s.dataAddr n.toNat) :
    ∃ u, drawRows (s.reg x).toNat (s.reg y).toNat n.toNat 0 (s.setReg vF 0#8) =
      .raised (.memoryOutOfRange (max (s.dataAddr 0) 4096)) u ∧ DrawFrame s u := by
  have hcount : n.toNat ≠ 0 := fun e => hn (BitVec.eq_of_toNat_eq e)
  obtain ⟨u, hu, hframe⟩ := drawRows_of_gt (s.reg x).toNat (s.reg y).toNat n.toNat 0 (s.setReg vF 0#8) hcount
    (by rwa [Nat.zero_add])
  exact ⟨u, hu, (DrawFrame.clearVF s).trans hframe⟩

/-- Settles O14: the body raises the fault of the first row out of range, and has not moved `PC`. -/
theorem drawHaltsOutOfRange : Obligations.DrawHaltsOutOfRange := by
  intro x y n s hn h
  obtain ⟨u, hu, hdraw⟩ := draw_body_of_gt x y n s hn h
  exact haltsWith_of_raised (by rw [exec_draw, hu]) (hdraw.frame .pc (by decide))

/-- The bits of a sprite depend on `I` and the bytes of memory alone. -/
theorem spriteCovers_congr {s t : State} (hi : t.i = s.i) (hmem : ∀ a, t.mem.read a = s.mem.read a) (vx vy n : Nat)
    (row : Fin 32) (col : Fin 64) : SpriteCovers t vx vy n row col ↔ SpriteCovers s vx vy n row col := by
  simp only [SpriteCovers, State.dataAddr, hi, hmem]

theorem xor_xor_cancel {p q : Prop} : Xor (Xor p q) q ↔ p := by
  unfold Xor; tauto

theorem xor_and_right {p q : Prop} : Xor p q ∧ q ↔ ¬ p ∧ Xor p q := by
  unfold Xor; tauto

/-- Settles O15: by O13 each draw XORs every pixel with the same bit, and a set pixel under a set bit at the second draw is one
that the first draw has just set. -/
theorem doubleDrawRestores : Obligations.DoubleDrawRestores := by
  intro x y n s t u hrange hfirst hx hy hsecond
  obtain ⟨t', ht', hpixel, -, -, -, -, hframe⟩ := drawXorsTheSprite x y n s hrange
  obtain rfl : t' = t := by simpa [ht'] using hfirst
  have hi : t'.i = s.i := hframe .i (by decide)
  have hmem : ∀ a, t'.mem.read a = s.mem.read a := hframe .mem (by decide)
  have hrange' : t'.dataAddr n.toNat ≤ 4096 ∨ n = 0#4 := by rwa [State.dataAddr, hi]
  obtain ⟨u', hu', hpixel', hhit, hmiss, -, -, -⟩ := drawXorsTheSprite x y n t' hrange'
  obtain rfl : u' = u := by simpa [hu'] using hsecond
  simp only [hx, hy, Collides, spriteCovers_congr hi hmem] at hpixel' hhit hmiss
  constructor
  · refine Framebuffer.ext_pixels fun row col => Bool.eq_iff_iff.2 ?_
    rw [← State.pixel, ← State.pixel, hpixel', hpixel, xor_xor_cancel]
  · have hcollides :
        (∃ row col, t'.pixel row col = true ∧ SpriteCovers s (s.reg x).toNat (s.reg y).toNat n.toNat row col) ↔
          ∃ row col, s.pixel row col = false ∧ t'.pixel row col = true := by
      refine exists₂_congr fun row col => ?_
      rw [hpixel row col, ← Bool.not_eq_true, xor_and_right]
    rw [← hcollides]
    refine ⟨fun hset => ?_, hhit⟩
    by_contra hno
    rw [hmiss hno] at hset
    exact absurd hset (by decide)

end Sys2Proof.Machine
end

section
/-! Every instruction as a body, which writes the state or raises a fault, followed by an outcome for `PC` (30_encoding.md R52).
What holds of all instructions is proved of the bodies and the outcomes. -/

namespace Sys2Proof.Machine

/-- The state that a body leaves, whether it raised or not. -/
def Effect.state : Effect → State
  | .done s => s
  | .raised _ s => s

@[simp] theorem Effect.state_done (s : State) : (Effect.done s).state = s := rfl

@[simp] theorem Effect.state_raised (cause : FaultCause) (s : State) : (Effect.raised cause s).state = s := rfl

/-- The body of `return`: a pop (R58). -/
def retBody (s : State) : Effect :=
  match s.pop with
  | .ok (_, s') => .done s'
  | .error cause => .raised cause s

/-- The body of a key skip: nothing is written, and a key index out of range is raised (R67, R68). -/
def keyBody (k : Byte) (s : State) : Effect :=
  match s.keyAt k with
  | .ok _ => .done s
  | .error cause => .raised cause s

/-- The body of an instruction: what it does before its outcome is applied. -/
def body (i : Instr) (s : State) : Effect :=
  match i with
  | .clearScreen => .done (s.setFb Framebuffer.clear)
  | .ret => retBody s
  | .jump _ => .done s
  | .call _ => s.push (s.pc + 2#16)
  | .skipEqImm _ _ => .done s
  | .skipNeImm _ _ => .done s
  | .skipEqReg _ _ => .done s
  | .loadImm x nn => .done (s.setReg x nn)
  | .addImm x nn => .done (s.setReg x (s.reg x + nn))
  | .loadReg x y => .done (s.setReg x (s.reg y))
  | .orReg x y => .done (s.setReg x (s.reg x ||| s.reg y))
  | .andReg x y => .done (s.setReg x (s.reg x &&& s.reg y))
  | .xorReg x y => .done (s.setReg x (s.reg x ^^^ s.reg y))
  | .addReg x y => setWithFlag (encode (.addReg x y)) x (addResult (s.reg x) (s.reg y)) (addCarry (s.reg x) (s.reg y)) s
  | .sub x y => setWithFlag (encode (.sub x y)) x (subResult (s.reg x) (s.reg y)) (noBorrow (s.reg x) (s.reg y)) s
  | .shr x y => setWithFlag (encode (.shr x y)) x (shrResult (s.reg x)) (shrOut (s.reg x)) s
  | .subn x y => setWithFlag (encode (.subn x y)) x (subResult (s.reg y) (s.reg x)) (strictlyAbove (s.reg x) (s.reg y)) s
  | .shl x y => setWithFlag (encode (.shl x y)) x (shlResult (s.reg x)) (shlOut (s.reg x)) s
  | .skipNeReg _ _ => .done s
  | .loadIndex nnn => .done (s.setI (BitVec.ofNat 16 nnn.toNat))
  | .jumpPlusV0 _ => .done s
  | .rand x nn => .done (s.nextRand.setReg x (Config.rand s.randDraws &&& nn))
  | .draw x y n => drawRows (s.reg x).toNat (s.reg y).toNat n.toNat 0 (s.setReg vF 0#8)
  | .skipKeyPressed x => keyBody (s.reg x) s
  | .skipKeyNotPressed x => keyBody (s.reg x) s
  | .loadDelay x => .done (s.setReg x s.delay)
  | .waitKey x => .done (s.lowestKey.elim s fun k => s.setReg x (BitVec.ofNat 8 k.val))
  | .setDelay x => .done (s.setDelayTimer (s.reg x))
  | .setSound x => .done (s.setSoundTimer (s.reg x))
  | .addIndex x => .done (s.setI (BitVec.ofNat 16 (s.i.toNat + (s.reg x).toNat)))
  | .fontAddr x => .done (s.setI (glyphAddr (s.reg x)))
  | .bcd x => storeBytes (s.dataAddr 0) (bcdDigits (s.reg x)) s
  | .storeRange x => storeBytes (s.dataAddr 0) (s.regsUpTo x) s
  | .loadRange x => loadRegs (x.toNat + 1) (s.dataAddr 0) 0 s

/-- The outcome of an instruction that does not raise (10_state.md R19). Where it raises, the value given here is not applied. -/
def outcome (i : Instr) (s : State) : PcOutcome :=
  match i with
  | .ret => .jump (s.pop.toOption.elim 0 fun popped => popped.1.toNat)
  | .jump nnn => .jump nnn.toNat
  | .call nnn => .jump nnn.toNat
  | .jumpPlusV0 nnn => .jump ((s.reg 0#4).toNat + nnn.toNat)
  | .skipEqImm x nn => skipOutcome (s.reg x == nn)
  | .skipNeImm x nn => skipOutcome (s.reg x != nn)
  | .skipEqReg x y => skipOutcome (s.reg x == s.reg y)
  | .skipNeReg x y => skipOutcome (s.reg x != s.reg y)
  | .skipKeyPressed x => skipOutcome ((s.keyAt (s.reg x)).toOption == some true)
  | .skipKeyNotPressed x => skipOutcome ((s.keyAt (s.reg x)).toOption == some false)
  | .waitKey _ => .advance (if s.lowestKey.isSome then 1 else 0)
  | _ => .advance 1

theorem execRet_eq_finish (s : State) : execRet s = finish (encode .ret) (outcome .ret s) (retBody s) := by
  cases h : s.pop <;> simp only [execRet, retBody, outcome, h] <;> rfl

theorem keySkip_eq_finish (op : Word) (k : Byte) (wanted : Bool) (s : State) :
    keySkip op k wanted s = finish op (skipOutcome ((s.keyAt k).toOption == some wanted)) (keyBody k s) := by
  cases h : s.keyAt k <;> simp only [keySkip, keyBody, h] <;> rfl

theorem execWaitKey_eq_finish (x : Nibble) (s : State) :
    execWaitKey x s = finish (encode (.waitKey x)) (outcome (.waitKey x) s) (body (.waitKey x) s) := by
  cases h : s.lowestKey <;> simp only [execWaitKey, body, outcome, h] <;> rfl

/-- Every instruction is its body, ended by its outcome or by the fault its body raised (R52). -/
theorem exec_eq_finish (i : Instr) (s : State) : exec i s = finish (encode i) (outcome i s) (body i s) := by
  cases i with
  | ret => exact execRet_eq_finish s
  | call nnn => exact exec_call nnn s
  | addImm x nn => exact exec_addImm x nn s
  | skipKeyPressed x => exact keySkip_eq_finish _ _ true s
  | skipKeyNotPressed x => exact keySkip_eq_finish _ _ false s
  | waitKey x => exact execWaitKey_eq_finish x s
  | _ => rfl

/-- Settles O52: an instruction is a body and its end, and every end is a next state. -/
theorem everyInstructionAnswersNext : Obligations.EveryInstructionAnswersNext := by
  intro i s
  rw [exec_eq_finish]
  exact finish_next ..

/-- Everything an instruction can do: its body runs to the end and the outcome is applied, or its body raises and the fault is
taken. -/
theorem exec_cases {i : Instr} {s t : State} (h : exec i s = .next t) :
    (∃ u, body i s = .done u ∧ t = u.applyPc (outcome i s)) ∨
    (∃ cause u, body i s = .raised cause u ∧ t = u.halt cause (some (encode i))) := by
  rw [exec_eq_finish] at h
  cases hbody : body i s with
  | done u =>
    rw [hbody, finish_done] at h
    exact .inl ⟨u, rfl, (Host.Outcome.next.inj h).symm⟩
  | raised cause u =>
    rw [hbody, finish_raised] at h
    exact .inr ⟨cause, u, rfl, (Host.Outcome.next.inj h).symm⟩

/-! ### What the bodies write -/

/-- The pieces of the state that the body of an instruction may write (10_state.md R15, R17, R21, R23, R25; 20_memory.md R30). -/
def bodyWrites : Instr → List Part
  | .clearScreen => [.fb]
  | .ret | .call _ => [.stack]
  | .jump _ | .jumpPlusV0 _ => []
  | .skipEqImm _ _ | .skipNeImm _ _ | .skipEqReg _ _ | .skipNeReg _ _ | .skipKeyPressed _ | .skipKeyNotPressed _ => []
  | .loadImm _ _ | .addImm _ _ | .loadReg _ _ | .orReg _ _ | .andReg _ _ | .xorReg _ _ => [.v]
  | .addReg _ _ | .sub _ _ | .shr _ _ | .subn _ _ | .shl _ _ => [.v]
  | .loadIndex _ | .addIndex _ | .fontAddr _ => [.i]
  | .rand _ _ => [.rand, .v]
  | .draw _ _ _ => [.v, .fb]
  | .loadDelay _ | .waitKey _ | .loadRange _ => [.v]
  | .setDelay _ => [.delay]
  | .setSound _ => [.sound]
  | .bcd _ | .storeRange _ => [.mem]

/-- A pop moves `SP` at most. -/
theorem retBody_state (s : State) : ∃ sp, (retBody s).state = s.setStack s.stack sp := by
  by_cases h : s.sp.val = 0
  · rw [retBody, s.pop_empty h]
    exact ⟨s.sp, rfl⟩
  · rw [retBody, s.pop_of_pos (Nat.pos_of_ne_zero h)]
    exact ⟨_, rfl⟩

/-- A push leaves every entry as it was, but for the one it writes. -/
theorem State.push_state (s : State) (a : Word) :
    ∃ stack sp, (s.push a).state = s.setStack stack sp ∧ ∀ j : Fin 16, stack[j] = s.stack[j] ∨ stack[j] = a := by
  by_cases h : s.sp.val < 16
  · rw [s.push_of_lt a h]
    refine ⟨_, _, rfl, fun j => ?_⟩
    rw [Fin.getElem_fin, Vector.getElem_set]
    split
    · exact .inr rfl
    · exact .inl rfl
  · rw [s.push_full a (by omega)]
    exact ⟨s.stack, s.sp, rfl, fun _ => .inl rfl⟩

theorem keyBody_state (k : Byte) (s : State) : (keyBody k s).state = s := by
  cases h : s.keyAt k <;> simp only [keyBody, h] <;> rfl

theorem setWithFlag_state (op : Word) (x : Nibble) (res f : Byte) (s : State) :
    ∃ v, (setWithFlag op x res f s).state = { s with v := v } := by
  rcases setWithFlag_cases op x res f s with ⟨t, ht, hv⟩ | ⟨-, -, ht⟩
  · exact ⟨t.v, by rw [ht]; exact hv⟩
  · exact ⟨s.v, by rw [ht]; rfl⟩

/-- Bytes stored leave their block load in memory and nothing else, also where some of them are out of range. -/
theorem storeBytes_state (a : Nat) {bs : List Byte} (hne : bs ≠ []) (s : State) :
    (storeBytes a bs s).state = s.setMem (s.mem.load a bs) := by
  rcases Nat.lt_or_ge 4096 (a + bs.length) with h | h
  · rw [storeBytes_of_gt bs a s hne h, Effect.state_raised]
  · rw [storeBytes_of_le bs a s h, Effect.state_done]

theorem loadRange_body_state (x : Nibble) (s : State) : ∃ v, (body (.loadRange x) s).state = { s with v := v } := by
  rcases Nat.lt_or_ge (s.dataAddr x.toNat) 4096 with h | h
  · obtain ⟨u, hu, hv, -⟩ := loadRegs_range_of_lt x h
    exact ⟨u.v, by rw [body, hu]; exact hv⟩
  · obtain ⟨u, hu, hv⟩ := loadRegs_range_of_ge x h
    exact ⟨u.v, by rw [body, hu]; exact hv⟩

/-- The two cases of `draw`: no row leaves memory, or one does. -/
theorem draw_range_cases (n : Nibble) (s : State) :
    (s.dataAddr n.toNat ≤ 4096 ∨ n = 0#4) ∨ (n ≠ 0#4 ∧ 4096 < s.dataAddr n.toNat) := by
  by_cases hn : n = 0#4
  · exact .inl (.inr hn)
  · exact (Nat.lt_or_ge 4096 (s.dataAddr n.toNat)).symm.imp .inl fun h => ⟨hn, h⟩

theorem draw_body_state (x y n : Nibble) (s : State) : DrawFrame s (body (.draw x y n) s).state := by
  rcases draw_range_cases n s with h | ⟨hn, h⟩
  · obtain ⟨u, hu, hdraw, -, -⟩ := draw_body_of_le x y n s h
    rw [body, hu]
    exact hdraw
  · obtain ⟨u, hu, hdraw⟩ := draw_body_of_gt x y n s hn h
    rw [body, hu]
    exact hdraw

theorem bcd_body_state (x : Nibble) (s : State) :
    (body (.bcd x) s).state = s.setMem (s.mem.load (s.dataAddr 0) (bcdDigits (s.reg x))) :=
  storeBytes_state _ (List.cons_ne_nil _ _) s

theorem State.regsUpTo_ne_nil (s : State) (x : Nibble) : s.regsUpTo x ≠ [] :=
  List.ne_nil_of_length_pos (by rw [s.length_regsUpTo]; omega)

theorem storeRange_body_state (x : Nibble) (s : State) :
    (body (.storeRange x) s).state = s.setMem (s.mem.load (s.dataAddr 0) (s.regsUpTo x)) :=
  storeBytes_state _ (s.regsUpTo_ne_nil x) s

theorem waitKey_body_state (x : Nibble) (s : State) : ∃ v, (body (.waitKey x) s).state = { s with v := v } := by
  cases h : s.lowestKey with
  | none => exact ⟨s.v, by rw [body, h]; rfl⟩
  | some k => exact ⟨_, by rw [body, h]; rfl⟩

/-- A body writes at most the pieces listed for it, whether it raises or not. -/
theorem body_frame (i : Instr) (s : State) : Frame (bodyWrites i) s (body i s).state := by
  have frame_v : ∀ {t : State}, (∃ v, t = { s with v := v }) → Frame [.v] s t := by
    rintro _ ⟨v, rfl⟩
    exact frame_of_eq_v rfl
  cases i with
  | clearScreen => exact s.frame_setFb _
  | ret =>
    obtain ⟨sp, hstate⟩ := retBody_state s
    rw [body, hstate]
    exact s.frame_setStack _ _
  | jump | jumpPlusV0 | skipEqImm | skipNeImm | skipEqReg | skipNeReg => exact Frame.refl s
  | call nnn =>
    obtain ⟨stack, sp, hstate, -⟩ := s.push_state (s.pc + 2#16)
    rw [body, hstate]
    exact s.frame_setStack _ _
  | skipKeyPressed x | skipKeyNotPressed x =>
    rw [body, keyBody_state]
    exact Frame.refl s
  | loadImm | addImm | loadReg | orReg | andReg | xorReg | loadDelay => exact s.frame_setReg _ _
  | addReg | sub | shr | subn | shl => exact frame_v (setWithFlag_state _ _ _ _ s)
  | loadIndex | addIndex | fontAddr => exact s.frame_setI _
  | rand x nn => exact s.frame_nextRand.trans (s.nextRand.frame_setReg _ _)
  | draw x y n => exact (draw_body_state x y n s).frame
  | waitKey x => exact frame_v (waitKey_body_state x s)
  | setDelay x => exact s.frame_setDelayTimer _
  | setSound x => exact s.frame_setSoundTimer _
  | bcd x =>
    rw [bcd_body_state]
    exact s.frame_setMem _
  | storeRange x =>
    rw [storeRange_body_state]
    exact s.frame_setMem _
  | loadRange x => exact frame_v (loadRange_body_state x s)

/-- No body writes `PC`, the keys, the halt, the policy, the ticks or the renderer's snapshot (10_state.md R19, R24, R26). -/
theorem not_mem_bodyWrites {p : Part} (hp : p ∈ [Part.pc, .keys, .halt, .policy, .ticks, .render]) (i : Instr) :
    p ∉ bodyWrites i := by
  have hwrites : bodyWrites i ⊆ [.v, .i, .stack, .delay, .sound, .fb, .mem, .rand] := by
    cases i <;> simp [bodyWrites]
  have hapart : p ∉ [Part.v, .i, .stack, .delay, .sound, .fb, .mem, .rand] := by
    revert p
    decide
  exact fun hmem => hapart (hwrites hmem)

theorem body_state_pc (i : Instr) (s : State) : (body i s).state.pc = s.pc :=
  body_frame i s .pc (not_mem_bodyWrites (by decide) i)

theorem body_state_halt (i : Instr) (s : State) :
    (body i s).state.halted = s.halted ∧ (body i s).state.fault = s.fault :=
  body_frame i s .halt (not_mem_bodyWrites (by decide) i)

/-- An instruction that does not fault writes at most what its body writes, and `PC`. -/
theorem exec_frame {i : Instr} {s t : State} (h : exec i s = .next t) (ht : t.halted = false) :
    ∃ u, body i s = .done u ∧ t = u.applyPc (outcome i s) ∧ Frame (bodyWrites i ++ [.pc]) s t := by
  rcases exec_cases h with ⟨u, hu, rfl⟩ | ⟨cause, u, -, rfl⟩
  · have hframe := body_frame i s
    rw [hu] at hframe
    exact ⟨u, hu, rfl, hframe.trans (u.frame_applyPc _)⟩
  · cases ht

/-! ### Who writes what -/

theorem mem_bodyWrites_i {i : Instr} :
    Part.i ∈ bodyWrites i ↔ (∃ nnn, i = .loadIndex nnn) ∨ (∃ x, i = .addIndex x) ∨ ∃ x, i = .fontAddr x := by
  cases i <;> simp [bodyWrites]

theorem mem_bodyWrites_stack {i : Instr} : Part.stack ∈ bodyWrites i ↔ i = .ret ∨ ∃ nnn, i = .call nnn := by
  cases i <;> simp [bodyWrites]

theorem mem_bodyWrites_delay {i : Instr} : Part.delay ∈ bodyWrites i ↔ ∃ x, i = .setDelay x := by
  cases i <;> simp [bodyWrites]

theorem mem_bodyWrites_sound {i : Instr} : Part.sound ∈ bodyWrites i ↔ ∃ x, i = .setSound x := by
  cases i <;> simp [bodyWrites]

theorem mem_bodyWrites_fb {i : Instr} : Part.fb ∈ bodyWrites i ↔ i = .clearScreen ∨ ∃ x y n, i = .draw x y n := by
  cases i <;> simp [bodyWrites]

theorem mem_bodyWrites_mem {i : Instr} :
    Part.mem ∈ bodyWrites i ↔ (∃ x, i = .bcd x) ∨ ∃ x, i = .storeRange x := by
  cases i <;> simp [bodyWrites]

/-- Settles O55: the frame of the instruction, and for each piece the instructions that list it. -/
theorem onlyNamedInstructionsWrite : Obligations.OnlyNamedInstructionsWrite := by
  intro i s t h ht
  obtain ⟨u, hu, rfl, hframe⟩ := exec_frame h ht
  have unwritten : ∀ p, p ≠ .pc → p ∉ bodyWrites i → p.same s (u.applyPc (outcome i s)) := fun p hpc hp =>
    hframe p (by simp [hpc, hp])
  refine ⟨fun hi => unwritten .i (by decide) ?_, fun hi => unwritten .stack (by decide) ?_,
    fun hi => unwritten .delay (by decide) ?_, fun hi => unwritten .sound (by decide) ?_,
    fun hi => unwritten .fb (by decide) ?_, fun hi => unwritten .mem (by decide) ?_,
    unwritten .keys (by decide) (not_mem_bodyWrites (by decide) i),
    unwritten .policy (by decide) (not_mem_bodyWrites (by decide) i),
    unwritten .ticks (by decide) (not_mem_bodyWrites (by decide) i),
    unwritten .render (by decide) (not_mem_bodyWrites (by decide) i)⟩
  · rw [mem_bodyWrites_i]
    rintro (⟨nnn, rfl⟩ | ⟨x, rfl⟩ | ⟨x, rfl⟩)
    · exact (hi nnn 0).1 rfl
    · exact (hi 0 x).2.1 rfl
    · exact (hi 0 x).2.2 rfl
  · rw [mem_bodyWrites_stack]
    rintro (rfl | ⟨nnn, rfl⟩)
    · exact (hi 0).1 rfl
    · exact (hi nnn).2 rfl
  · rw [mem_bodyWrites_delay]
    exact fun ⟨x, hx⟩ => hi x hx
  · rw [mem_bodyWrites_sound]
    exact fun ⟨x, hx⟩ => hi x hx
  · rw [mem_bodyWrites_fb]
    rintro (rfl | ⟨x, y, n, rfl⟩)
    · exact (hi 0 0 0).1 rfl
    · exact (hi x y n).2 rfl
  · rw [mem_bodyWrites_mem]
    rintro (⟨x, rfl⟩ | ⟨x, rfl⟩)
    · exact (hi x).1 rfl
    · exact (hi x).2 rfl

end Sys2Proof.Machine
end

section
/-! Who may fault, where `PC` goes and who writes `VF`, over all instructions (60_exceptions.md R94, 10_state.md R15, R19). -/

namespace Sys2Proof.Machine

/-! ### The faults of the bodies -/

theorem retBody_raised {s u : State} {cause : FaultCause} (h : retBody s = .raised cause u) :
    cause = .stackUnderflow ∧ s.sp.val = 0 := by
  by_cases hsp : s.sp.val = 0
  · rw [retBody, s.pop_empty hsp] at h
    cases h
    exact ⟨rfl, hsp⟩
  · rw [retBody, s.pop_of_pos (Nat.pos_of_ne_zero hsp)] at h
    cases h

theorem State.push_raised {s u : State} {a : Word} {cause : FaultCause} (h : s.push a = .raised cause u) :
    cause = .stackOverflow ∧ s.sp.val = 16 := by
  by_cases hsp : s.sp.val < 16
  · rw [s.push_of_lt a hsp] at h
    cases h
  · have hfull : s.sp.val = 16 := by omega
    rw [s.push_full a hfull] at h
    cases h
    exact ⟨rfl, hfull⟩

theorem keyBody_raised {k : Byte} {s u : State} {cause : FaultCause} (h : keyBody k s = .raised cause u) :
    cause = .keyIndexOutOfRange k ∧ 16 ≤ k.toNat := by
  rcases Nat.lt_or_ge k.toNat 16 with hk | hk
  · rw [keyBody, s.keyAt_of_lt hk] at h
    cases h
  · rw [keyBody, s.keyAt_of_ge hk] at h
    cases h
    exact ⟨rfl, hk⟩

theorem setWithFlag_raised {op : Word} {x : Nibble} {res f : Byte} {s u : State} {cause : FaultCause}
    (h : setWithFlag op x res f s = .raised cause u) :
    cause = .vfOperandConflict op ∧ x = vF ∧ s.vfPolicy = .fault := by
  rcases setWithFlag_cases op x res f s with ⟨t, ht, -⟩ | ⟨hx, hpolicy, ht⟩
  · rw [ht] at h
    cases h
  · rw [ht] at h
    cases h
    exact ⟨rfl, hx, hpolicy⟩

theorem storeBytes_raised {a : Nat} {bs : List Byte} (hne : bs ≠ []) {s u : State} {cause : FaultCause}
    (h : storeBytes a bs s = .raised cause u) : ∃ a', cause = .memoryOutOfRange a' ∧ 4096 ≤ a' := by
  rcases Nat.lt_or_ge 4096 (a + bs.length) with hlen | hlen
  · rw [storeBytes_of_gt bs a s hne hlen] at h
    cases h
    exact ⟨_, rfl, le_max_right ..⟩
  · rw [storeBytes_of_le bs a s hlen] at h
    cases h

theorem loadRange_body_raised {x : Nibble} {s u : State} {cause : FaultCause}
    (h : body (.loadRange x) s = .raised cause u) : ∃ a, cause = .memoryOutOfRange a ∧ 4096 ≤ a := by
  rcases Nat.lt_or_ge (s.dataAddr x.toNat) 4096 with hlast | hlast
  · obtain ⟨t, ht, -, -⟩ := loadRegs_range_of_lt x hlast
    rw [body, ht] at h
    cases h
  · obtain ⟨t, ht, -⟩ := loadRegs_range_of_ge x hlast
    rw [body, ht] at h
    cases h
    exact ⟨_, rfl, le_max_right ..⟩

theorem draw_body_raised {x y n : Nibble} {s u : State} {cause : FaultCause}
    (h : body (.draw x y n) s = .raised cause u) : ∃ a, cause = .memoryOutOfRange a ∧ 4096 ≤ a := by
  rcases draw_range_cases n s with hrange | ⟨hn, hrange⟩
  · obtain ⟨t, ht, -, -, -⟩ := draw_body_of_le x y n s hrange
    rw [body, ht] at h
    cases h
  · obtain ⟨t, ht, -⟩ := draw_body_of_gt x y n s hn hrange
    rw [body, ht] at h
    cases h
    exact ⟨_, rfl, le_max_right ..⟩

/-- The causes that R94 lets an instruction raise, each in its case. -/
def MayRaise (i : Instr) (s : State) : FaultCause → Prop
  | .memoryOutOfRange a => 4096 ≤ a ∧
      ((∃ x y n, i = .draw x y n) ∨ (∃ x, i = .bcd x) ∨ (∃ x, i = .storeRange x) ∨ (∃ x, i = .loadRange x))
  | .stackOverflow => s.sp.val = 16 ∧ ∃ nnn, i = .call nnn
  | .stackUnderflow => s.sp.val = 0 ∧ i = .ret
  | .registerIndexOutOfRange _ => False
  | .keyIndexOutOfRange v => 16 ≤ v.toNat ∧ ∃ x, s.reg x = v ∧ (i = .skipKeyPressed x ∨ i = .skipKeyNotPressed x)
  | .vfOperandConflict op => s.vfPolicy = .fault ∧ op = encode i ∧ i.wellFormed = false

theorem mayRaise_of_body_raised {i : Instr} {s u : State} {cause : FaultCause} (h : body i s = .raised cause u) :
    MayRaise i s cause := by
  cases i with
  | ret =>
    obtain ⟨rfl, hsp⟩ := retBody_raised h
    exact ⟨hsp, rfl⟩
  | call nnn =>
    obtain ⟨rfl, hsp⟩ := State.push_raised h
    exact ⟨hsp, nnn, rfl⟩
  | addReg x y | sub x y | shr x y | subn x y | shl x y =>
    obtain ⟨rfl, rfl, hpolicy⟩ := setWithFlag_raised h
    exact ⟨hpolicy, rfl, rfl⟩
  | draw x y n =>
    obtain ⟨a, rfl, ha⟩ := draw_body_raised h
    exact ⟨ha, .inl ⟨x, y, n, rfl⟩⟩
  | skipKeyPressed x =>
    obtain ⟨rfl, hk⟩ := keyBody_raised h
    exact ⟨hk, x, rfl, .inl rfl⟩
  | skipKeyNotPressed x =>
    obtain ⟨rfl, hk⟩ := keyBody_raised h
    exact ⟨hk, x, rfl, .inr rfl⟩
  | bcd x =>
    obtain ⟨a, rfl, ha⟩ := storeBytes_raised (List.cons_ne_nil _ _) h
    exact ⟨ha, .inr (.inl ⟨x, rfl⟩)⟩
  | storeRange x =>
    obtain ⟨a, rfl, ha⟩ := storeBytes_raised (s.regsUpTo_ne_nil x) h
    exact ⟨ha, .inr (.inr (.inl ⟨x, rfl⟩))⟩
  | loadRange x =>
    obtain ⟨a, rfl, ha⟩ := loadRange_body_raised h
    exact ⟨ha, .inr (.inr (.inr ⟨x, rfl⟩))⟩
  | _ => cases h

/-- Settles O53: a machine that had not halted halts only where the body raises; the record is then of the raised cause, and
of the `PC` and the opcode of the instruction. -/
theorem faultsAreThoseListed : Obligations.FaultsAreThoseListed := by
  intro i s t hs h ht
  rcases exec_cases h with ⟨u, hu, rfl⟩ | ⟨cause, u, hu, rfl⟩
  · have hkept : u.halted = s.halted := by
      simpa [hu] using (body_state_halt i s).1
    rw [State.applyPc_halted, hkept, hs] at ht
    cases ht
  · have hpc : u.pc = s.pc := by simpa [hu] using body_state_pc i s
    refine ⟨cause, by rw [State.halt_fault, hpc], ?_⟩
    have hcause := mayRaise_of_body_raised hu
    cases cause <;> exact hcause

/-! ### The program counter -/

/-- The skips of 42_skip.md. -/
def IsSkip (i : Instr) : Prop :=
  (∃ x nn, i = .skipEqImm x nn ∨ i = .skipNeImm x nn) ∨ (∃ x y, i = .skipEqReg x y ∨ i = .skipNeReg x y) ∨
    ∃ x, i = .skipKeyPressed x ∨ i = .skipKeyNotPressed x

/-- The instructions whose outcome is a jump (41_control_flow.md R57). -/
def IsJump (i : Instr) : Prop := i = .ret ∨ ∃ nnn, i = .jump nnn ∨ i = .call nnn ∨ i = .jumpPlusV0 nnn

theorem skipOutcome_cases (condition : Bool) :
    skipOutcome condition = .advance 1 ∨ skipOutcome condition = .advance 2 := by
  cases condition
  · exact .inl rfl
  · exact .inr rfl

theorem outcome_of_isSkip {i : Instr} (h : IsSkip i) (s : State) :
    outcome i s = .advance 1 ∨ outcome i s = .advance 2 := by
  rcases h with ⟨x, nn, rfl | rfl⟩ | ⟨x, y, rfl | rfl⟩ | ⟨x, rfl | rfl⟩ <;> exact skipOutcome_cases _

theorem outcome_waitKey (x : Nibble) (s : State) :
    outcome (.waitKey x) s = .advance 1 ∨ outcome (.waitKey x) s = .advance 0 := by
  cases h : s.lowestKey with
  | none => exact .inr (by rw [outcome, h]; rfl)
  | some k => exact .inl (by rw [outcome, h]; rfl)

/-- Everything an outcome can be (10_state.md R19). -/
theorem outcome_cases (i : Instr) (s : State) :
    outcome i s = .advance 1 ∨ (outcome i s = .advance 2 ∧ IsSkip i) ∨
    (outcome i s = .advance 0 ∧ ∃ x, i = .waitKey x) ∨ ((∃ a, outcome i s = .jump a) ∧ IsJump i) := by
  have of_isSkip (h : IsSkip i) : outcome i s = .advance 1 ∨ (outcome i s = .advance 2 ∧ IsSkip i) :=
    (outcome_of_isSkip h s).imp_right fun hout => ⟨hout, h⟩
  cases i with
  | ret => exact .inr (.inr (.inr ⟨⟨_, rfl⟩, .inl rfl⟩))
  | jump nnn => exact .inr (.inr (.inr ⟨⟨_, rfl⟩, .inr ⟨nnn, .inl rfl⟩⟩))
  | call nnn => exact .inr (.inr (.inr ⟨⟨_, rfl⟩, .inr ⟨nnn, .inr (.inl rfl)⟩⟩))
  | jumpPlusV0 nnn => exact .inr (.inr (.inr ⟨⟨_, rfl⟩, .inr ⟨nnn, .inr (.inr rfl)⟩⟩))
  | skipEqImm x nn => exact (of_isSkip (.inl ⟨x, nn, .inl rfl⟩)).imp_right .inl
  | skipNeImm x nn => exact (of_isSkip (.inl ⟨x, nn, .inr rfl⟩)).imp_right .inl
  | skipEqReg x y => exact (of_isSkip (.inr (.inl ⟨x, y, .inl rfl⟩))).imp_right .inl
  | skipNeReg x y => exact (of_isSkip (.inr (.inl ⟨x, y, .inr rfl⟩))).imp_right .inl
  | skipKeyPressed x => exact (of_isSkip (.inr (.inr ⟨x, .inl rfl⟩))).imp_right .inl
  | skipKeyNotPressed x => exact (of_isSkip (.inr (.inr ⟨x, .inr rfl⟩))).imp_right .inl
  | waitKey x => exact (outcome_waitKey x s).imp_right fun hout => .inr (.inl ⟨hout, x, rfl⟩)
  | _ => exact .inl rfl

/-- Settles O54: the body leaves `PC`, and the outcome moves it as `outcome_cases` says. -/
theorem pcMovesBySlots : Obligations.PcMovesBySlots := by
  intro i s t _ h ht
  obtain ⟨u, hu, rfl, -⟩ := exec_frame h ht
  have hpc : u.pc = s.pc := by simpa [hu] using body_state_pc i s
  rcases outcome_cases i s with hout | ⟨hout, hskip⟩ | ⟨hout, hwait⟩ | ⟨-, hjump⟩
  · exact .inl (by rw [hout, State.advance_pc, hpc])
  · exact .inr (.inl ⟨by rw [hout, State.advance_pc, hpc], hskip⟩)
  · exact .inr (.inr (.inl ⟨by rw [hout, State.advance_pc, hpc]; simp, hwait⟩))
  · exact .inr (.inr (.inr hjump))

/-! ### The flag register -/

/-- The five ALU instructions that write a flag (43_alu.md R77 to R81). -/
def IsFlagAlu (i : Instr) : Prop :=
  ∃ x y, i = .addReg x y ∨ i = .sub x y ∨ i = .subn x y ∨ i = .shr x y ∨ i = .shl x y

theorem flagByte_zero_or_one (b : Bool) : flagByte b = 0#8 ∨ flagByte b = 1#8 := by
  cases b
  · exact .inl rfl
  · exact .inr rfl

theorem setWithFlag_done_vF {op : Word} {x : Nibble} {res f : Byte} {s u : State} (hx : x ≠ vF)
    (h : setWithFlag op x res f s = .done u) : u.reg vF = f := by
  rw [setWithFlag_of_ne op hx] at h
  cases h
  rw [State.reg_setReg, if_pos rfl]

/-- A flag-writing ALU instruction in a form R16 allows leaves its flag in `VF`. -/
theorem alu_flag {i : Instr} (hi : IsFlagAlu i) (hwf : i.wellFormed = true) {s u : State} (h : body i s = .done u) :
    u.reg vF = 0#8 ∨ u.reg vF = 1#8 := by
  obtain ⟨x, y, rfl | rfl | rfl | rfl | rfl⟩ := hi
  all_goals
    rw [setWithFlag_done_vF (bne_iff_ne.1 hwf) h]
    exact flagByte_zero_or_one _

/-- `draw` leaves the collision in `VF` (40_display.md R56). -/
theorem draw_flag {x y n : Nibble} {s u : State} (h : body (.draw x y n) s = .done u) :
    u.reg vF = 0#8 ∨ u.reg vF = 1#8 := by
  rcases draw_range_cases n s with hrange | ⟨hn, hrange⟩
  · obtain ⟨t, ht, -, -, hhit, hmiss⟩ := draw_body_of_le x y n s hrange
    rw [body, ht] at h
    cases h
    by_cases hc : Collides s (s.reg x).toNat (s.reg y).toNat n.toNat
    · exact .inr (hhit hc)
    · exact .inl (hmiss hc)
  · obtain ⟨t, ht, -⟩ := draw_body_of_gt x y n s hn hrange
    rw [body, ht] at h
    cases h

/-- The instructions that name `VF` as their destination (10_state.md R15). -/
def NamesVF (i : Instr) : Prop :=
  (∃ nn, i = .loadImm vF nn ∨ i = .addImm vF nn ∨ i = .rand vF nn) ∨
  (∃ y, i = .loadReg vF y ∨ i = .orReg vF y ∨ i = .andReg vF y ∨ i = .xorReg vF y) ∨
  i = .loadDelay vF ∨ i = .waitKey vF ∨ i = .loadRange vF

theorem reg_vF_setReg (s : State) {x : Nibble} (hx : x ≠ vF) (b : Byte) : (s.setReg x b).reg vF = s.reg vF := by
  rw [State.reg_setReg, if_neg hx.symm]

theorem loadRange_body_vF {x : Nibble} (hx : x ≠ vF) {s u : State} (h : body (.loadRange x) s = .done u) :
    u.reg vF = s.reg vF := by
  rcases Nat.lt_or_ge (s.dataAddr x.toNat) 4096 with hlast | hlast
  · obtain ⟨t, ht, -, hreg⟩ := loadRegs_range_of_lt x hlast
    rw [body, ht] at h
    cases h
    have hvF : vF.toNat = 15 := rfl
    have hbelow : ¬ vF.toNat ≤ x.toNat := fun hle => hx (BitVec.eq_of_toNat_eq (by omega))
    rw [hreg vF, if_neg hbelow]
  · obtain ⟨t, ht, -⟩ := loadRegs_range_of_ge x hlast
    rw [body, ht] at h
    cases h

theorem waitKey_body_vF {x : Nibble} (hx : x ≠ vF) {s u : State} (h : body (.waitKey x) s = .done u) :
    u.reg vF = s.reg vF := by
  cases hkey : s.lowestKey with
  | none =>
    rw [body, hkey] at h
    cases h
    rfl
  | some k =>
    rw [body, hkey] at h
    cases h
    exact reg_vF_setReg s hx _

theorem keeps_or_names {i : Instr} {x : Nibble} {s u : State} (hkeep : x ≠ vF → u.reg vF = s.reg vF)
    (hname : x = vF → NamesVF i) :
    u.reg vF = s.reg vF ∨ IsFlagAlu i ∨ (∃ x y n, i = .draw x y n) ∨ NamesVF i := by
  by_cases hx : x = vF
  · exact .inr (.inr (.inr (hname hx)))
  · exact .inl (hkeep hx)

/-- A body keeps `VF`, or is that of a flag writer, or of an instruction that names `VF`. -/
theorem body_vF {i : Instr} {s u : State} (h : body i s = .done u) :
    u.reg vF = s.reg vF ∨ IsFlagAlu i ∨ (∃ x y n, i = .draw x y n) ∨ NamesVF i := by
  have unwritten (hv : Part.v ∉ bodyWrites i) : u.reg vF = s.reg vF := by
    have hframe := body_frame i s .v hv
    rw [h] at hframe
    exact hframe vF
  cases i with
  | loadImm x nn => cases h; exact keeps_or_names (reg_vF_setReg s · _) fun hx => .inl ⟨nn, .inl (hx ▸ rfl)⟩
  | addImm x nn => cases h; exact keeps_or_names (reg_vF_setReg s · _) fun hx => .inl ⟨nn, .inr (.inl (hx ▸ rfl))⟩
  | rand x nn => cases h; exact keeps_or_names (reg_vF_setReg s.nextRand · _) fun hx => .inl ⟨nn, .inr (.inr (hx ▸ rfl))⟩
  | loadReg x y => cases h; exact keeps_or_names (reg_vF_setReg s · _) fun hx => .inr (.inl ⟨y, .inl (hx ▸ rfl)⟩)
  | orReg x y => cases h; exact keeps_or_names (reg_vF_setReg s · _) fun hx => .inr (.inl ⟨y, .inr (.inl (hx ▸ rfl))⟩)
  | andReg x y =>
    cases h; exact keeps_or_names (reg_vF_setReg s · _) fun hx => .inr (.inl ⟨y, .inr (.inr (.inl (hx ▸ rfl)))⟩)
  | xorReg x y =>
    cases h; exact keeps_or_names (reg_vF_setReg s · _) fun hx => .inr (.inl ⟨y, .inr (.inr (.inr (hx ▸ rfl)))⟩)
  | loadDelay x => cases h; exact keeps_or_names (reg_vF_setReg s · _) fun hx => .inr (.inr (.inl (hx ▸ rfl)))
  | waitKey x => exact keeps_or_names (waitKey_body_vF · h) fun hx => .inr (.inr (.inr (.inl (hx ▸ rfl))))
  | loadRange x => exact keeps_or_names (loadRange_body_vF · h) fun hx => .inr (.inr (.inr (.inr (hx ▸ rfl))))
  | addReg x y => exact .inr (.inl ⟨x, y, .inl rfl⟩)
  | sub x y => exact .inr (.inl ⟨x, y, .inr (.inl rfl)⟩)
  | subn x y => exact .inr (.inl ⟨x, y, .inr (.inr (.inl rfl))⟩)
  | shr x y => exact .inr (.inl ⟨x, y, .inr (.inr (.inr (.inl rfl)))⟩)
  | shl x y => exact .inr (.inl ⟨x, y, .inr (.inr (.inr (.inr rfl)))⟩)
  | draw x y n => exact .inr (.inr (.inl ⟨x, y, n, rfl⟩))
  | _ => exact .inl (unwritten (by simp [bodyWrites]))

/-- Settles O56: an outcome writes no register, so `VF` is as the body left it, by `body_vF`; the flag is that of `set_with_flag`
or the collision. -/
theorem onlyNamedInstructionsWriteVF : Obligations.OnlyNamedInstructionsWriteVF := by
  intro i s t h ht
  obtain ⟨u, hu, rfl, -⟩ := exec_frame h ht
  rw [State.reg_applyPc]
  constructor
  · rintro hwf (halu | ⟨x, y, n, rfl⟩)
    · exact alu_flag halu hwf hu
    · exact draw_flag hu
  · exact body_vF hu

end Sys2Proof.Machine
end

section
/-! The tick and the step (30_encoding.md R52, 60_exceptions.md R95, R101 to R105, R111). -/

namespace Sys2Proof.Machine

/-- Settles O39: each timer as a number is its predecessor, and the two updates compose to the frame. -/
theorem timersFloorAtZero : Obligations.TimersFloorAtZero := by
  intro s
  have hframe := (s.frame_setDelayTimer (decrement s.delay)).trans (State.frame_setSoundTimer _ (decrement s.sound))
  simp only [State.timersDecrement_delay, State.timersDecrement_sound, decrement_toNat]
  exact ⟨by omega, by omega, by omega, by omega, hframe⟩

/-- The state in which the cycle of a step runs: the tick is taken and its keys are latched (R101). -/
theorem State.frame_tickStart (s : State) : Frame [.keys, .ticks] s (s.popTick.latchKeys s.nextTick.snapshot) := by
  intro p hp
  cases p with
  | keys | ticks => simp at hp
  | _ => simp [Part.same]

theorem State.frame_endTick (s : State) : Frame [.delay, .sound, .render] s s.timersDecrement.offerFrame := by
  intro p hp
  cases p with
  | delay | sound | render => simp at hp
  | _ => simp [Part.same]

/-- A step that runs a cycle (R101). -/
theorem step_run {s u : State} (hs : s.halted = false) (hrun : s.nextTick.run = true)
    (hcycle : cycle (s.popTick.latchKeys s.nextTick.snapshot) = .next u) : step s = .next (afterCycle u) := by
  rw [step, hrun]
  exact tick_run _ (by rw [State.popTick_halted, hs]) hcycle

/-- A step that runs no cycle (R101). -/
theorem step_idle {s : State} (hs : s.halted = false) (hrun : s.nextTick.run = false) :
    step s = .next (s.popTick.latchKeys s.nextTick.snapshot).timersDecrement.offerFrame := by
  rw [step, hrun]
  exact tick_idle _ (by rw [State.popTick_halted, hs])

/-- Everything a step that answers a next state can have done (R101). -/
theorem step_cases {s t : State} (h : step s = .next t) :
    s.halted = false ∧
    ((s.nextTick.run = false ∧ t = (s.popTick.latchKeys s.nextTick.snapshot).timersDecrement.offerFrame) ∨
     (s.nextTick.run = true ∧ ∃ u, cycle (s.popTick.latchKeys s.nextTick.snapshot) = .next u ∧ t = afterCycle u)) := by
  obtain ⟨hs, hcases⟩ := tick_cases h
  exact ⟨by rwa [State.popTick_halted] at hs, hcases⟩

/-- A cycle always answers a next state (R52). -/
theorem cycle_next (s : State) : ∃ u, cycle s = .next u := by
  cases hf : s.fetch with
  | error cause => exact ⟨_, cycle_of_fetch_error hf⟩
  | ok op =>
    rw [cycle_of_fetch hf]
    cases decode op with
    | instr i => exact everyInstructionAnswersNext i s
    | unknown op' => exact ⟨_, rfl⟩

/-- Settles O45: the check of `halted` comes first, and both kinds of tick answer a next state. -/
theorem onlyAHaltedMachineStops : Obligations.OnlyAHaltedMachineStops := by
  intro s
  constructor
  · intro hs
    rw [step, tick_of_halted _ _ (by rw [State.popTick_halted, hs]), State.popTick_fault]
  · intro hs
    cases hrun : s.nextTick.run with
    | false => exact ⟨_, step_idle hs hrun⟩
    | true =>
      obtain ⟨u, hu⟩ := cycle_next (s.popTick.latchKeys s.nextTick.snapshot)
      exact ⟨_, step_run hs hrun hu⟩

/-- A step whose fetch decodes to an instruction runs it (R52, R101). -/
theorem step_of_decode {s t : State} {op : Word} {i : Instr} (hs : s.halted = false) (hrun : s.nextTick.run = true)
    (hfetch : s.fetch = .ok op) (hdecode : decode op = .instr i)
    (hexec : exec i (s.popTick.latchKeys s.nextTick.snapshot) = .next t) :
    step s = .next (if t.halted then t else t.timersDecrement.offerFrame) := by
  refine step_run hs hrun ?_
  rw [cycle_of_fetch (op := op) (by simpa using hfetch), hdecode]
  exact hexec

/-- Settles O40: the fetch at `PC` gives the two bytes there, in the state with the tick taken as well. -/
theorem stepRunsDecodedInstruction : Obligations.StepRunsDecodedInstruction := by
  intro s i hs hrun hpc hdecode
  obtain ⟨t, ht⟩ := everyInstructionAnswersNext i (s.popTick.latchKeys s.nextTick.snapshot)
  exact ⟨t, ht, step_of_decode hs hrun (s.fetch_of_le hpc) hdecode ht⟩

/-! ### A placed word -/

theorem decode_of_decodeTableWord {w : Nat} {i : Instr} (h : decodeTableWord 16 w = some i) :
    decode (tableWord 16 w) = .instr i := by
  cases hd : decode (tableWord 16 w) with
  | instr i' =>
    simp only [decodeTableWord, decodeBytes, opOfBytes_parts, hd] at h
    cases h
    rfl
  | unknown op =>
    simp only [decodeTableWord, decodeBytes, opOfBytes_parts, hd] at h
    cases h

/-- The opcode placed at a `PC` of at most 0xFFE is what the fetch reads (20_memory.md R34, R35). -/
theorem State.fetch_placeOpcode (s : State) (op : Word) (hpc : s.pc.toNat ≤ 0xFFE) : (s.placeOpcode op).fetch = .ok op := by
  have hhi : (s.placeOpcode op).mem.read s.pc.toNat = opHi op :=
    Memory.read_load_inside (m := s.mem) (base := s.pc.toNat) (k := 0) (bytes := [opHi op, opLo op]) rfl (by omega)
  have hlo : (s.placeOpcode op).mem.read (s.pc.toNat + 1) = opLo op :=
    Memory.read_load_inside (m := s.mem) (base := s.pc.toNat) (k := 1) (bytes := [opHi op, opLo op]) rfl (by omega)
  rw [State.fetch_of_le _ (show (s.placeOpcode op).pc.toNat ≤ 0xFFE from hpc)]
  rw [show (s.placeOpcode op).pc = s.pc from rfl, hhi, hlo, opOfBytes_parts]

/-- Taking the tick that `sendRunTick` sent, whose keymap is the one the state holds, gives the state before. -/
theorem State.tickStart_sendRunTick (s : State) :
    (s.sendRunTick.popTick.latchKeys s.sendRunTick.nextTick.snapshot) = s := rfl

/-- Settles O41: the next step takes the tick sent with the word, so its cycle runs in the state with the word placed, where the
fetch reads it. -/
theorem placedWordRunsNext : Obligations.PlacedWordRunsNext := by
  intro s w i hs hpc _ htable
  have hfetch := s.fetch_placeOpcode (tableWord 16 w) hpc
  obtain ⟨t, ht⟩ := everyInstructionAnswersNext i (s.placeOpcode (tableWord 16 w))
  refine ⟨s.placeOpcode (tableWord 16 w), t, s.frame_setMem _, fun a ha ha' => ?_, ht, ?_⟩
  · exact Memory.read_load_outside (m := s.mem) (base := s.pc.toNat)
      (bytes := [opHi (tableWord 16 w), opLo (tableWord 16 w)]) (by simp only [List.length_cons, List.length_nil]; omega)
  · refine step_of_decode (s := s.withFetchWord 16 w) hs rfl hfetch (decode_of_decodeTableWord htable) ?_
    rw [State.withFetchWord, State.tickStart_sendRunTick, ht]

/-- Settles O42: the cycle is `Advance(1)`, between the start and the end of the tick. -/
theorem unknownOpcodeIsNoOp : Obligations.UnknownOpcodeIsNoOp := by
  intro s op hs hrun hfetch hdecode
  have hcycle : cycle (s.popTick.latchKeys s.nextTick.snapshot) =
      .next ((s.popTick.latchKeys s.nextTick.snapshot).applyPc (.advance 1)) := by
    rw [cycle_of_fetch (op := op) (by simpa using hfetch), hdecode]
    rfl
  have hstep := step_run hs hrun hcycle
  rw [afterCycle_running (by simp [hs])] at hstep
  have hframe := (s.frame_tickStart.trans (State.frame_applyPc _ (.advance 1))).trans (State.frame_endTick _)
  refine ⟨_, hstep, ?_, ?_, ?_, ?_, ?_, hframe.mono (by decide)⟩
  · rw [State.offerFrame_pc, State.timersDecrement_pc, State.advance_pc, State.latchKeys_pc, State.popTick_pc]
  · simp
  · simp
  · simp
  · simp

/-- Settles O43: the cycle takes the fault of the fetch, and the tick ends there. -/
theorem fetchFaultHalts : Obligations.FetchFaultHalts := by
  intro s hs hrun hpc
  have hfetch : (s.popTick.latchKeys s.nextTick.snapshot).fetch = .error (.memoryOutOfRange (max s.pc.toNat 4096)) := by
    rw [State.fetch_latchKeys, State.fetch_popTick, s.fetch_of_ge hpc]
  refine ⟨_, step_run hs hrun (cycle_of_fetch_error hfetch), ?_, ?_⟩
  · rw [afterCycle_halt, State.halt_halted]
  · rw [afterCycle_fault, State.halt_fault, State.latchKeys_pc, State.popTick_pc]

/-- Settles O44: the tick is its start and its end. -/
theorem tickWithoutCycle : Obligations.TickWithoutCycle := by
  intro s hs hrun
  have hframe := s.frame_tickStart.trans (State.frame_endTick _)
  refine ⟨_, step_idle hs hrun, ?_, ?_, ?_, ?_, hframe.mono (by decide)⟩
  · simp
  · simp
  · simp
  · simp

/-! ### What a step keeps and writes -/

/-- A cycle that does not fault keeps each piece but `PC` that the body of its instruction does not write. -/
theorem cycle_keeps {p : Part} (hp : p ≠ .pc) {s u : State} (h : cycle s = .next u) (hu : u.halted = false)
    (hunwritten : ∀ op i, s.fetch = .ok op → decode op = .instr i → p ∉ bodyWrites i) : p.same s u := by
  rcases cycle_cases h with ⟨cause, -, rfl⟩ | ⟨op, i, hfetch, hdecode, hexec⟩ | ⟨op, -, -, rfl⟩
  · cases hu
  · obtain ⟨-, -, -, hframe⟩ := exec_frame hexec hu
    exact hframe p (by simp [hp, hunwritten op i hfetch hdecode])
  · exact s.frame_applyPc _ p (by simp [hp])

/-- Settles O57: the keys are latched at the start of the tick, and neither its cycle nor its end writes them or the policy. -/
theorem stepLatchesTheSnapshot : Obligations.StepLatchesTheSnapshot := by
  intro s t h ht
  obtain ⟨-, ⟨-, rfl⟩ | ⟨-, u, hu, rfl⟩⟩ := step_cases h
  · simp
  · rw [afterCycle_halt] at ht
    have hkeys : u.keys = s.nextTick.snapshot :=
      cycle_keeps (p := .keys) (s := s.popTick.latchKeys s.nextTick.snapshot) (by decide) hu ht
        fun _ i _ _ => not_mem_bodyWrites (by decide) i
    have hpolicy : u.vfPolicy = s.popTick.vfPolicy :=
      cycle_keeps (p := .policy) (s := s.popTick.latchKeys s.nextTick.snapshot) (by decide) hu ht
        fun _ i _ _ => not_mem_bodyWrites (by decide) i
    rw [afterCycle_keys, afterCycle_vfPolicy, hkeys, hpolicy, State.popTick_vfPolicy]
    exact ⟨rfl, rfl⟩

/-- Settles O59: the end of a tick that has not faulted offers the framebuffer it finds. -/
theorem stepOffersTheFrame : Obligations.StepOffersTheFrame := by
  intro s t h ht
  obtain ⟨-, ⟨-, rfl⟩ | ⟨-, u, hu, rfl⟩⟩ := step_cases h
  · rfl
  · rw [afterCycle_halt] at ht
    rw [afterCycle_running ht]
    rfl

/-! ### The timers over a step -/

theorem step_delay {s t : State} (h : step s = .next t) (ht : t.halted = false)
    (hset : s.nextTick.run = true → ∀ op x, s.fetch = .ok op → decode op ≠ .instr (.setDelay x)) :
    t.delay = decrement s.delay := by
  obtain ⟨-, ⟨-, rfl⟩ | ⟨hrun, u, hu, rfl⟩⟩ := step_cases h
  · simp
  · rw [afterCycle_halt] at ht
    have hdelay : u.delay = s.popTick.delay := by
      refine cycle_keeps (p := .delay) (s := s.popTick.latchKeys s.nextTick.snapshot) (by decide) hu ht
        fun op i hfetch hdecode hwrites => ?_
      obtain ⟨x, rfl⟩ := mem_bodyWrites_delay.1 hwrites
      exact hset hrun op x (by simpa using hfetch) hdecode
    rw [afterCycle_running ht, State.offerFrame_delay, State.timersDecrement_delay, hdelay, State.popTick_delay]

theorem step_sound {s t : State} (h : step s = .next t) (ht : t.halted = false)
    (hset : s.nextTick.run = true → ∀ op x, s.fetch = .ok op → decode op ≠ .instr (.setSound x)) :
    t.sound = decrement s.sound := by
  obtain ⟨-, ⟨-, rfl⟩ | ⟨hrun, u, hu, rfl⟩⟩ := step_cases h
  · simp
  · rw [afterCycle_halt] at ht
    have hsound : u.sound = s.popTick.sound := by
      refine cycle_keeps (p := .sound) (s := s.popTick.latchKeys s.nextTick.snapshot) (by decide) hu ht
        fun op i hfetch hdecode hwrites => ?_
      obtain ⟨x, rfl⟩ := mem_bodyWrites_sound.1 hwrites
      exact hset hrun op x (by simpa using hfetch) hdecode
    rw [afterCycle_running ht, State.offerFrame_sound, State.timersDecrement_sound, hsound, State.popTick_sound]

/-- A step whose fetch decodes to an instruction with a known next state that has not halted (R52, R101). -/
theorem step_eq_of_exec {s t u : State} {op : Word} {i : Instr} (h : step s = .next t) (hrun : s.nextTick.run = true)
    (hfetch : s.fetch = .ok op) (hdecode : decode op = .instr i)
    (hexec : exec i (s.popTick.latchKeys s.nextTick.snapshot) = .next u) (hu : u.halted = s.halted) :
    t = u.timersDecrement.offerFrame := by
  obtain ⟨hs, -⟩ := step_cases h
  have hstep := step_of_decode hs hrun hfetch hdecode hexec
  rw [hu, hs, h] at hstep
  exact Host.Outcome.next.inj hstep

theorem step_setDelay {s t : State} {op : Word} {x : Nibble} (h : step s = .next t) (hrun : s.nextTick.run = true)
    (hfetch : s.fetch = .ok op) (hdecode : decode op = .instr (.setDelay x)) : t.delay = decrement (s.reg x) := by
  rw [step_eq_of_exec h hrun hfetch hdecode (exec_setDelay x _) (by simp)]
  simp

theorem step_setSound {s t : State} {op : Word} {x : Nibble} (h : step s = .next t) (hrun : s.nextTick.run = true)
    (hfetch : s.fetch = .ok op) (hdecode : decode op = .instr (.setSound x)) : t.sound = decrement (s.reg x) := by
  rw [step_eq_of_exec h hrun hfetch hdecode (exec_setSound x _) (by simp)]
  simp

/-- Settles O60, by the four lemmas on the timers over a step. -/
theorem stepDecrementsTheTimers : Obligations.StepDecrementsTheTimers := by
  intro s t h ht
  exact ⟨step_delay h ht, step_sound h ht, fun _ _ hrun hfetch =>
    ⟨step_setDelay h hrun hfetch, step_setSound h hrun hfetch⟩⟩

/-- Settles O46, by induction on `j`: the first tick leaves `n - 1`, and each later one, which does not set the timer, takes 1. -/
theorem delayCountsDown : Obligations.DelayCountsDown := by
  intro s op x run len _ hrun hfetch hdecode _ hfirst hlater j hj
  induction j, hj using Nat.le_induction with
  | base =>
    intro _
    rw [Nat.sub_self, step_setDelay hfirst hrun hfetch hdecode, decrement_toNat]
  | succ j hj ih =>
    intro hlen
    obtain ⟨hstep, hrunning, hset⟩ := hlater (j - 1) (by omega)
    rw [Nat.sub_add_cancel hj] at hstep hrunning
    rw [Nat.add_sub_cancel, step_delay hstep hrunning hset, decrement_toNat, ih (by omega)]
    omega

/-! ### Runs -/

/-- A run splits at every place of its list of ticks. -/
theorem runTicks_append_next {ts us : List HostTick} {s t : State} (h : runTicks (ts ++ us) s = .next t) :
    ∃ u, runTicks ts s = .next u ∧ runTicks us u = .next t := by
  induction ts generalizing s with
  | nil => exact ⟨s, rfl, h⟩
  | cons a ts ih =>
    rw [List.cons_append, runTicks] at h
    split at h
    · rename_i s' hs'
      obtain ⟨u, hu, hrest⟩ := ih h
      exact ⟨u, (runTicks_cons ts hs').trans hu, hrest⟩
    · cases h
    · cases h

/-- Settles O58: a run goes on from the state it has reached, where a tick of a halted machine stops; and a run that has gone on
past a state has found it running. -/
theorem runStopsAtTheHalt : Obligations.RunStopsAtTheHalt := by
  intro ts s t h
  constructor
  · intro ht next later
    rw [runTicks_append _ h, runTicks, tick_of_halted _ _ ht]
  · rintro before after rfl hne
    obtain ⟨u, hu, hrest⟩ := runTicks_append_next h
    obtain ⟨a, later, rfl⟩ := List.exists_cons_of_ne_nil hne
    exact ⟨u, hu, by rw [State.running, runTicks_cons_running hrest]; rfl⟩

end Sys2Proof.Machine
end

section
/-! The invariant over a step (10_state.md R20, R26; 20_memory.md R29). -/

namespace Sys2Proof.Machine

/-- The invariant speaks of memory, `PC`, the stack entries and the halt. -/
theorem State.Inv.congr {s t : State} (h : s.Inv) (hmem : t.mem = s.mem) (hpc : t.pc = s.pc) (hstack : t.stack = s.stack)
    (hhalted : t.halted = s.halted) (hfault : t.fault = s.fault) : t.Inv where
  memory := by rw [hmem]; exact h.memory
  pc := by rw [hpc]; exact h.pc
  returns := by rw [hstack]; exact h.returns
  record := by rw [hhalted, hfault]; exact h.record

/-- Taking a fault keeps the invariant: it changes the halt and its record, together. -/
theorem State.Inv.halt {s : State} (h : s.Inv) (cause : FaultCause) (op : Option Word) : (s.halt cause op).Inv where
  memory := h.memory
  pc := h.pc
  returns := h.returns
  record := rfl

/-- Only `bcd` and `store-range` replace the memory, by a block load, which keeps the canonical form (20_memory.md R30). -/
theorem body_mem_wf {s : State} (h : s.mem.wf = true) (i : Instr) : (body i s).state.mem.wf = true := by
  cases i with
  | ret =>
    obtain ⟨sp, hstate⟩ := retBody_state s
    rw [body, hstate]
    exact h
  | call nnn =>
    obtain ⟨stack, sp, hstate, -⟩ := s.push_state (s.pc + 2#16)
    rw [body, hstate]
    exact h
  | skipKeyPressed x | skipKeyNotPressed x =>
    rw [body, keyBody_state]
    exact h
  | addReg | sub | shr | subn | shl =>
    obtain ⟨v, hstate⟩ := setWithFlag_state _ _ _ _ s
    rw [body, hstate]
    exact h
  | draw x y n =>
    rw [(draw_body_state x y n s).mem]
    exact h
  | waitKey x =>
    obtain ⟨v, hstate⟩ := waitKey_body_state x s
    rw [hstate]
    exact h
  | bcd x =>
    rw [bcd_body_state]
    exact Memory.wf_load h _ _
  | storeRange x =>
    rw [storeRange_body_state]
    exact Memory.wf_load h _ _
  | loadRange x =>
    obtain ⟨v, hstate⟩ := loadRange_body_state x s
    rw [hstate]
    exact h
  | _ => exact h

/-- Only `call` writes a stack entry: the address after a call that was fetched, at most 0x1000 (R20, 41_control_flow.md R60). -/
theorem body_returns {s : State} (hs : s.Inv) (hpc : s.pc.toNat ≤ 0xFFE) (i : Instr) (j : Fin 16) :
    (body i s).state.stack[j].toNat ≤ maxReturn := by
  have hold : s.stack[j].toNat ≤ maxReturn := hs.returns j
  by_cases hstack : Part.stack ∈ bodyWrites i
  · rcases mem_bodyWrites_stack.1 hstack with rfl | ⟨nnn, rfl⟩
    · obtain ⟨sp, hstate⟩ := retBody_state s
      rw [body, hstate]
      exact hold
    · obtain ⟨stack, sp, hstate, hentry⟩ := s.push_state (s.pc + 2#16)
      rw [body, hstate, State.setStack_stack]
      rcases hentry j with h | h
      · rwa [h]
      · rw [h]
        show _ ≤ 0x1000
        bv_omega
  · obtain ⟨-, hsame⟩ := body_frame i s .stack hstack
    rwa [hsame]

/-- A jump goes to a return address, to a 12-bit address or to the sum of one and a byte (R20). -/
theorem outcome_jump_le {i : Instr} {s : State} {a : Nat} (hs : s.Inv) (h : outcome i s = .jump a) : a ≤ maxPc := by
  cases i with
  | ret =>
    by_cases hsp : s.sp.val = 0
    · rw [outcome, s.pop_empty hsp] at h
      cases h
      exact Nat.zero_le _
    · rw [outcome, s.pop_of_pos (Nat.pos_of_ne_zero hsp)] at h
      cases h
      exact (hs.returns ⟨s.sp.val - 1, by omega⟩).trans (by decide)
  | jump nnn | call nnn =>
    cases h
    have hnnn : nnn.toNat < 4096 := nnn.isLt
    show _ ≤ 0x10FE
    omega
  | jumpPlusV0 nnn =>
    cases h
    have hv : (s.reg 0#4).toNat < 256 := (s.reg 0#4).isLt
    have hnnn : nnn.toNat < 4096 := nnn.isLt
    show _ ≤ 0x10FE
    omega
  | _ => cases h

/-- `Advance(k)` with at most two slots, from where an opcode was fetched, stays within the range of `PC` (R20). -/
theorem State.advance_pc_le {s : State} {k : Nat} (hpc : s.pc.toNat ≤ 0xFFE) (hk : k ≤ 2) :
    (s.applyPc (.advance k)).pc.toNat ≤ maxPc := by
  rw [State.applyPc_advance_pc, BitVec.toNat_ofNat]
  show _ ≤ 0x10FE
  omega

theorem outcome_pc_le {s u : State} (hs : s.Inv) (hpc : s.pc.toNat ≤ 0xFFE) (hu : u.pc = s.pc) (i : Instr) :
    (u.applyPc (outcome i s)).pc.toNat ≤ maxPc := by
  rw [← hu] at hpc
  rcases outcome_cases i s with hout | ⟨hout, -⟩ | ⟨hout, -⟩ | ⟨⟨a, hout⟩, -⟩
  · rw [hout]
    exact State.advance_pc_le hpc (by decide)
  · rw [hout]
    exact State.advance_pc_le hpc (by decide)
  · rw [hout]
    exact State.advance_pc_le hpc (by decide)
  · have ha := outcome_jump_le hs hout
    rw [hout, State.applyPc_jump_pc_toNat _ (lt_of_le_of_lt ha (by decide))]
    exact ha

/-- What a body leaves, whether it raised or not, meets the invariant. -/
theorem body_inv {s : State} (hs : s.Inv) (hpc : s.pc.toNat ≤ 0xFFE) (i : Instr) : (body i s).state.Inv where
  memory := body_mem_wf hs.memory i
  pc := by rw [body_state_pc]; exact hs.pc
  returns := body_returns hs hpc i
  record := by
    obtain ⟨hhalted, hfault⟩ := body_state_halt i s
    rw [hhalted, hfault, hs.record]

/-- An instruction that was fetched keeps the invariant. -/
theorem exec_inv {i : Instr} {s t : State} (hs : s.Inv) (hpc : s.pc.toNat ≤ 0xFFE) (h : exec i s = .next t) : t.Inv := by
  have hbody := body_inv hs hpc i
  have hbodyPc := body_state_pc i s
  rcases exec_cases h with ⟨u, hu, rfl⟩ | ⟨cause, u, hu, rfl⟩
  · rw [hu, Effect.state_done] at hbody hbodyPc
    exact {
      memory := by rw [State.applyPc_mem]; exact hbody.memory
      pc := outcome_pc_le hs hpc hbodyPc i
      returns := by rw [State.applyPc_stack]; exact hbody.returns
      record := by rw [State.applyPc_halted, State.applyPc_fault]; exact hbody.record }
  · rw [hu, Effect.state_raised] at hbody
    exact hbody.halt cause _

theorem cycle_inv {s u : State} (hs : s.Inv) (h : cycle s = .next u) : u.Inv := by
  rcases cycle_cases h with ⟨cause, -, rfl⟩ | ⟨op, i, hfetch, -, hexec⟩ | ⟨op, hfetch, -, rfl⟩
  · exact hs.halt cause none
  · exact exec_inv hs (State.pc_of_fetch hfetch) hexec
  · exact {
      memory := hs.memory
      pc := State.advance_pc_le (State.pc_of_fetch hfetch) (by decide)
      returns := hs.returns
      record := hs.record }

/-- Settles O51: the start and the end of a tick touch nothing the invariant speaks of, and its cycle keeps it. -/
theorem stepKeepsInvariant : Obligations.StepKeepsInvariant := by
  intro s t hs h
  have hstart : (s.popTick.latchKeys s.nextTick.snapshot).Inv :=
    hs.congr (by simp) (by simp) (by simp) (by simp) (by simp)
  obtain ⟨-, ⟨-, rfl⟩ | ⟨-, u, hu, rfl⟩⟩ := step_cases h
  · exact hstart.congr rfl rfl rfl rfl rfl
  · exact (cycle_inv hstart hu).congr (by simp) (by simp) (by simp) (by simp) (by simp)

end Sys2Proof.Machine
end

section
/-! Reset and loading (10_state.md R28, 70_reset_and_hazards.md R112 to R115). -/

namespace Sys2Proof.Machine

/-- Settles O49: reset lists no cell, and its `PC`, its stack and its halt are what R28 says. -/
theorem resetMeetsInvariant : Obligations.ResetMeetsInvariant where
  memory := Memory.reset_wf
  pc := by decide
  returns := by decide
  record := rfl

theorem State.boot_mem_wf (font cartridge : List Byte) : (State.boot font cartridge).mem.wf = true :=
  Memory.wf_load (Memory.wf_load (Memory.wf_load Memory.reset_wf _ _) _ _) _ _

/-- Settles O50: the loads keep the canonical form, and everything else is as at reset. -/
theorem bootMeetsInvariant : Obligations.BootMeetsInvariant := fun font cartridge => {
  memory := State.boot_mem_wf font cartridge
  pc := resetMeetsInvariant.pc
  returns := resetMeetsInvariant.returns
  record := resetMeetsInvariant.record }

/-- Zeroed memory reads 0 at every address: under the font because zeros are loaded, elsewhere because nothing is listed there
(R112). -/
theorem Memory.read_zeroed (a : Nat) : Memory.zeroed.read a = 0#8 := by
  have hlen : Config.font.length = 80 := rfl
  rw [Memory.zeroed, Memory.read_load]
  split
  · exact List.getElem_replicate ..
  · rename_i h
    show Config.font.getD a 0#8 = 0#8
    rw [List.getD_eq_default]
    have hout : ¬ (0 ≤ a ∧ a - 0 < Config.font.length ∧ a < 4096) := by rwa [List.length_replicate] at h
    omega

/-- The font, from address 0 on, over zero (R112, R114). -/
theorem Memory.read_load_font (font : List Byte) {a : Nat} (ha : a < 4096) :
    (Memory.zeroed.load Config.fontBase font).read a = font.getD a 0#8 := by
  rw [Memory.read_load]
  split
  · rename_i h
    exact (List.getD_eq_getElem _ _ h.2.1).symm
  · rename_i h
    rw [Memory.read_zeroed, List.getD_eq_default]
    show font.length ≤ a
    have : ¬ (0 ≤ a ∧ a - 0 < font.length ∧ a < 4096) := h
    omega

/-- What memory holds after reset: the cartridge from 0x200 on, else the font (R112, R113). -/
theorem State.read_boot (font cartridge : List Byte) {a : Nat} (ha : a < 4096) :
    (State.boot font cartridge).mem.read a =
      if 0x200 ≤ a ∧ a - 0x200 < cartridge.length then cartridge.getD (a - 0x200) 0#8 else font.getD a 0#8 := by
  have hload : (State.boot font cartridge).mem.read a =
      ((Memory.zeroed.load Config.fontBase font).load 0x200 cartridge).read a := rfl
  rw [hload, Memory.read_load]
  by_cases h : 0x200 ≤ a ∧ a - 0x200 < cartridge.length
  · rw [if_pos h, dif_pos ⟨h.1, h.2, ha⟩, List.getD_eq_getElem]
  · rw [if_neg h, dif_neg (by omega), Memory.read_load_font font ha]

/-- Settles O47: memory by `State.read_boot`, and everything else as at reset. -/
theorem bootLeavesResetValues : Obligations.BootLeavesResetValues := by
  intro font cartridge
  refine ⟨fun a ha => State.read_boot font cartridge ha, rfl, fun x => ?_, rfl, rfl, fun j => ?_, rfl, rfl, fun k => ?_,
    fun row col => Framebuffer.read_clear row col, rfl, rfl⟩
  · exact Vector.getElem_replicate ..
  · exact Vector.getElem_replicate ..
  · exact Vector.getElem_replicate ..

/-- Settles O48: both memories are canonical and read the same, so they are the same list. -/
theorem defaultFontBootLoadsIntoReset : Obligations.DefaultFontBootLoadsIntoReset := by
  intro cartridge
  have hwf : (State.reset.mem.load 0x200 cartridge).wf = true := Memory.wf_load Memory.reset_wf _ _
  have hmem : (State.boot Config.font cartridge).mem = State.reset.mem.load 0x200 cartridge := by
    refine canonicalMemoryIsUnique _ _ (State.boot_mem_wf _ _) hwf fun a ha => ?_
    rw [State.read_boot _ _ ha, Memory.read_load]
    by_cases h : 0x200 ≤ a ∧ a - 0x200 < cartridge.length
    · rw [if_pos h, dif_pos ⟨h.1, h.2, ha⟩, List.getD_eq_getElem]
    · rw [if_neg h, dif_neg (by omega)]
      rfl
  exact congrArg State.reset.setMem hmem

end Sys2Proof.Machine
end
